-- ==== Sys2Proof/Word.lean ====
section
/-! DEFINITION. The two word types of the LS8-SC core (spec/00_scope.md R8, spec/10_state.md R20). -/

namespace Sys2Proof

/-- A byte: a register value, a memory cell, an opcode or an operand (R8: "an unsigned integer in 0..255 (8 bits)"). -/
abbrev Byte := BitVec 8

/-- A register index, 0 to 7 (R20: "indices 0–7"). Register 7 is the stack pointer (R22). -/
abbrev Reg := Fin 8

end Sys2Proof
end

