-- ==== Sys2Proof/Config.lean ====
section
/-! DEFINITION. The implementation parameters of the LS8-SC core (spec/00_scope.md R6): those the spec fixes have
their value here, those it leaves OPEN are constants with no body, so that nothing can be proved of them. -/

namespace Sys2Proof

namespace Config

/-- `MEM_SIZE`: the number of memory cells (R6, R39). -/
def memSize : Nat := 256

/-- `SP_INDEX`: the register used as stack pointer (R6, R22). -/
def spIndex : Reg := 7

/-- `SP_RESET`: the value of register 7 after reset (R6, R24). -/
def spReset : Byte := 0xF4

/-- `PC_RESET`: the program counter after reset, the reset vector (R6, R183). -/
def pcReset : Nat := 0

/-- `LOAD_BASE`: the address of the first loaded byte (R6, R190). -/
def loadBase : Nat := 0

/-- What an address that the memory list does not name reads as: every cell is 0 at reset (R39, R40). -/
def unlistedByte : Byte := 0

/-- The two renderings of hexadecimal digits above 9 that R141 leaves open. -/
inductive HexCase where
  | lower
  | upper
deriving DecidableEq, Repr, Inhabited

/-- `PRN_SEPARATOR`, OPEN (R141, D20): what the host puts between the three representations of a printed byte.
A free value: no body (log entry 9). -/
opaque prnSeparator : List Char

/-- `PRN_HEX_CASE`, OPEN (R141, D20). A free value: no body (log entry 9). -/
opaque prnHexCase : HexCase

/-- `ABORT_EXIT_STATUS`, OPEN (R196, D28): the host's exit status after a fatal execution error.
A free value: no body (log entry 9). -/
opaque abortExitStatus : Nat

/-- One less than the host's exit status after a load failure, which R196 says is non-zero and does not number. One
constant for every cause of a failed load is the model's choice (log entry 13). A free value: no body (log entry 9). -/
opaque loadFailExitStatusPred : Nat

end Config

end Sys2Proof
end

