-- ==== Sys2Proof/Syntax.lean ====
section
/-! DEFINITION. The instructions of the LS8-SC core: one constructor per row of spec/opcode_table.json
(spec/30_encoding.md R71, R72), the default row among them. -/

namespace Sys2Proof

/-- An instruction with its operand BYTES. The opcode byte alone chooses the constructor (R73: "operand bytes play no
part in choosing the instruction"), so a register operand is the whole byte it was fetched as (R74); that it names one
of the eight registers is checked when the instruction executes (R95; log entry 5). -/
inductive Instr where
  /-- `LDI reg, value` (R110). -/
  | ldi (reg value : Byte)
  /-- `PRN reg` (R140). -/
  | prn (reg : Byte)
  /-- `MUL regA, regB` (R121). -/
  | mul (regA regB : Byte)
  /-- `CMP regA, regB` (R122). -/
  | cmp (regA regB : Byte)
  /-- `PUSH reg` (R112). -/
  | push (reg : Byte)
  /-- `POP reg` (R113). -/
  | pop (reg : Byte)
  /-- `ST regA, regB` (R111). -/
  | st (regA regB : Byte)
  /-- `JMP reg` (R130). -/
  | jmp (reg : Byte)
  /-- `JEQ reg` (R131). -/
  | jeq (reg : Byte)
  /-- `JNE reg` (R132). -/
  | jne (reg : Byte)
  /-- `HLT` (R142). -/
  | hlt
  /-- The default arm: a byte that is not one of the eleven opcodes (R77, R97). -/
  | unrecognised (byte : Byte)
deriving DecidableEq, Repr

end Sys2Proof
end

