-- ==== Sys2Proof/WellFormed.lean ====
section
/-! DEFINITION. Which instructions are well formed: the checks the encoding puts on the fields of an instruction
(spec/30_encoding.md R72, R74, R77). -/

namespace Sys2Proof

/-- The eleven opcode bytes of R72, in the source's order. -/
def opcodeBytes : List Byte :=
  [0x82, 0x47, 0xA2, 0xA7, 0x45, 0x46, 0x84, 0x54, 0x55, 0x56, 0x01]

/-- A register operand is legal when it is 0 to 7 (R71, R74). -/
def legalReg (o : Byte) : Bool := decide (o.toNat ≤ 7)

/-- Every operand byte that is a register index is legal. LDI's immediate is none (R75). -/
def Instr.regsLegal : Instr → Bool
  | .ldi r _ => legalReg r
  | .prn r => legalReg r
  | .mul a b => legalReg a && legalReg b
  | .cmp a b => legalReg a && legalReg b
  | .push r => legalReg r
  | .pop r => legalReg r
  | .st a b => legalReg a && legalReg b
  | .jmp r => legalReg r
  | .jeq r => legalReg r
  | .jne r => legalReg r
  | .hlt => true
  | .unrecognised _ => true

/-- The instruction is what its own bytes decode to: the byte of the default arm is none of the eleven opcodes (R77).
An instruction with an illegal register byte is encodable: the machine fetches it, and then aborts (R95). -/
def Instr.encodable : Instr → Bool
  | .unrecognised b => !opcodeBytes.contains b
  | .ldi _ _ => true
  | .prn _ => true
  | .mul _ _ => true
  | .cmp _ _ => true
  | .push _ => true
  | .pop _ => true
  | .st _ _ => true
  | .jmp _ => true
  | .jeq _ => true
  | .jne _ => true
  | .hlt => true

/-- A well-formed instruction: encodable, with legal register operands. -/
def Instr.wellFormed (i : Instr) : Bool := i.encodable && i.regsLegal

end Sys2Proof
end

