-- ==== Sys2Proof/Decode.lean ====
section
/-! DEFINITION. The opcode map, the decoder and the encoder (spec/30_encoding.md R70 to R76, R83;
spec/40_fetch_decode_execute.md R92 to R94). -/

namespace Sys2Proof

/-- The four formats of R71, each with the instruction it builds from its operand bytes. -/
inductive Form where
  /-- Format Z, and the default arm: no operand byte. -/
  | z (i : Instr)
  /-- Format R: one register byte. -/
  | r (mk : Byte → Instr)
  /-- Format RR: two register bytes. -/
  | rr (mk : Byte → Byte → Instr)
  /-- Format RI: a register byte and an immediate byte. -/
  | ri (mk : Byte → Byte → Instr)

/-- The number of operand bytes of a format (R71). -/
def Form.operands : Form → Nat
  | .z _ => 0
  | .r _ => 1
  | .rr _ => 2
  | .ri _ => 2

/-- The opcode map of R72, in the source's order. The whole opcode byte is compared (mask 0xFF). -/
def opcodeTable : List (Byte × Form) :=
  [ (0x82, .ri .ldi)
  , (0x47, .r .prn)
  , (0xA2, .rr .mul)
  , (0xA7, .rr .cmp)
  , (0x45, .r .push)
  , (0x46, .r .pop)
  , (0x84, .rr .st)
  , (0x54, .r .jmp)
  , (0x55, .r .jeq)
  , (0x56, .r .jne)
  , (0x01, .z .hlt) ]

/-- The first row of a table for an opcode byte; where there is none, the default arm (R73, R77). -/
def lookupForm (ir : Byte) : List (Byte × Form) → Form
  | [] => .z (.unrecognised ir)
  | (op, f) :: rows => if ir = op then f else lookupForm ir rows

/-- Decode an opcode byte (R73): total, and it looks at the opcode byte only. -/
def decodeOpcode (ir : Byte) : Form := lookupForm ir opcodeTable

/-- The length in bytes of the instruction an opcode byte begins (R76): from that byte alone, and 1 for every
unrecognised byte. -/
def opcodeLength (ir : Byte) : Nat := 1 + (decodeOpcode ir).operands

/-- Why no instruction could be read, with the address that could not be read. R94: operands are read in address
order, so the first one missing is the one named. -/
inductive DecodeError where
  | noOpcode (addr : Nat)
  | noFirstOperand (ir : Byte) (addr : Nat)
  | noSecondOperand (ir : Byte) (addr : Nat)
deriving DecidableEq, Repr

/-- The opcode byte, where it was read (R92, R94: the `ir` of the fault record). -/
def DecodeError.ir : DecodeError → Option Byte
  | .noOpcode _ => none
  | .noFirstOperand ir _ => some ir
  | .noSecondOperand ir _ => some ir

/-- The address that could not be read (R92, R94: the `addr` of the fault record). -/
def DecodeError.addr : DecodeError → Nat
  | .noOpcode a => a
  | .noFirstOperand _ a => a
  | .noSecondOperand _ a => a

/-- Read one instruction at address `a` through a reader of bytes: opcode, then the operands the opcode asks for, in
address order and no others (R92 to R94, R83). Used over memory by the machine and over a list of bytes by
`decode`. -/
def decodeAt (read : Nat → Option Byte) (a : Nat) : Except DecodeError Instr :=
  match read a with
  | none => .error (.noOpcode a)
  | some ir =>
    match decodeOpcode ir with
    | .z i => .ok i
    | .r mk =>
      match read (a + 1) with
      | none => .error (.noFirstOperand ir (a + 1))
      | some o1 => .ok (mk o1)
    | .rr mk =>
      match read (a + 1) with
      | none => .error (.noFirstOperand ir (a + 1))
      | some o1 =>
        match read (a + 2) with
        | none => .error (.noSecondOperand ir (a + 2))
        | some o2 => .ok (mk o1 o2)
    | .ri mk =>
      match read (a + 1) with
      | none => .error (.noFirstOperand ir (a + 1))
      | some o1 =>
        match read (a + 2) with
        | none => .error (.noSecondOperand ir (a + 2))
        | some o2 => .ok (mk o1 o2)

/-- Decode the instruction at the head of a list of bytes. -/
def decode (bytes : List Byte) : Except DecodeError Instr := decodeAt (fun k => bytes[k]?) 0

/-- The opcode byte of an instruction (R72). -/
def Instr.opcode : Instr → Byte
  | .ldi _ _ => 0x82
  | .prn _ => 0x47
  | .mul _ _ => 0xA2
  | .cmp _ _ => 0xA7
  | .push _ => 0x45
  | .pop _ => 0x46
  | .st _ _ => 0x84
  | .jmp _ => 0x54
  | .jeq _ => 0x55
  | .jne _ => 0x56
  | .hlt => 0x01
  | .unrecognised b => b

/-- The bytes of an instruction in address order (R70, R71, R80). -/
def encode : Instr → List Byte
  | .ldi r v => [0x82, r, v]
  | .prn r => [0x47, r]
  | .mul a b => [0xA2, a, b]
  | .cmp a b => [0xA7, a, b]
  | .push r => [0x45, r]
  | .pop r => [0x46, r]
  | .st a b => [0x84, a, b]
  | .jmp r => [0x54, r]
  | .jeq r => [0x55, r]
  | .jne r => [0x56, r]
  | .hlt => [0x01]
  | .unrecognised b => [b]

/-- The length in bytes of an instruction (R71, R76). -/
def Instr.length (i : Instr) : Nat := (encode i).length

/-- The three bytes of a word numbered as spec/opcode_table.json numbers it (bit 0 is the least significant bit of the
first byte, the second byte is bits 15..8); the bits above `nbits` are 0. -/
def tableWordBytes (nbits w : Nat) : List Byte :=
  [BitVec.ofNat 8 (w % 2 ^ nbits), BitVec.ofNat 8 (w % 2 ^ nbits / 256), BitVec.ofNat 8 (w % 2 ^ nbits / 65536)]

/-- The instruction the decoder reads from a word of the opcode table. -/
def decodeTableWord (nbits w : Nat) : Option Instr :=
  match decode (tableWordBytes nbits w) with
  | .ok i => some i
  | .error _ => none

end Sys2Proof
end

