-- ==== Sys2Proof/Machine/State.lean ====
section
/-! DEFINITION. The state of the machine, all of it plain data, its value right after reset, and the reasons a step can
stop (spec/10_state.md R20 to R40; spec/60_exceptions.md R151, R166, R168). -/

namespace Sys2Proof.Machine

/-- The status of the machine (R34). -/
inductive Status where
  | loading
  | loadFailed
  | running
  | halted
  | aborted
deriving DecidableEq, Repr

/-- The causes of a fatal execution error (R168). They have names and no numbers. -/
inductive Cause where
  /-- R152: an access outside 0..255. -/
  | memoryBounds
  /-- R153: an operation whose exact result for register 7 leaves 0..255. -/
  | stackPointerRange
  /-- R154: JEQ or JNE before any CMP. -/
  | flagsUndefined
  /-- R155: a register operand byte over 7. -/
  | registerIndex
  /-- R156: an ALU operation name outside the recognised set; no instruction passes one. -/
  | aluUnsupportedOperation
deriving DecidableEq, Repr

/-- The causes of a fatal load error (R168, R191 to R193). -/
inductive LoadCause where
  | notFound
  | parse
  | overflow
deriving DecidableEq, Repr

/-- The fault record of an Aborted machine (R35): the cause, the address of the failing instruction, the opcode byte
fetched there (none if the fetch itself failed) and the offending memory address (none if the cause has none). -/
structure FaultRecord where
  cause : Cause
  pc : Nat
  ir : Option Byte
  addr : Option Nat
deriving DecidableEq, Repr

/-- What the machine emits (R166): `out` on the OUT channel, the other three on DIAG. -/
inductive Event where
  /-- `Out(v)`, emitted by PRN (R140). -/
  | out (v : Byte)
  /-- `Report(UnknownInstruction, addr, byte)`, the non-fatal report (R97, R157). -/
  | report (addr : Nat) (byte : Byte)
  /-- `Fatal(cause, pc, ir, addr)`, the last event of an aborted run (R151). -/
  | fatal (record : FaultRecord)
  /-- The load-error event (R191 to R193), with its cause and nothing else (log entry 11). -/
  | loadError (cause : LoadCause)
deriving DecidableEq, Repr

/-- The flag set: three booleans without a layout (R30). -/
structure Flags where
  equal : Bool
  greater : Bool
  less : Bool
deriving DecidableEq, Repr

/-- Memory as the list of its nonzero cells, by rising address (R39; the form is `Memory.wf`). -/
abbrev Memory := List Host.Cell

/-- The complete state (R40: "nothing else persists between steps"). -/
structure State where
  /-- `x[0]` to `x[7]`; `x[7]` is the stack pointer (R20, R22). -/
  regs : Vector Byte 8
  /-- The program counter, an unsigned index that is never wrapped (R26, R27; log entry 1). -/
  pc : Nat
  /-- `FL.E`, `FL.G`, `FL.L` (R30). -/
  flags : Flags
  /-- `FLV`: a CMP has executed since reset (R31). -/
  flv : Bool
  /-- `M[0]` to `M[255]` (R39). -/
  mem : Memory
  /-- `status`, which is also the STATUS channel (R34, R166). -/
  status : Status
  /-- The fault record of an Aborted machine (R35). -/
  fault : Option FaultRecord
  /-- Every event so far on OUT and DIAG, oldest first (R40, R166; log entry 3). -/
  events : List Event
deriving DecidableEq, Repr

/-- The machine right after reset (R40, R181): every entity zero but `x[7] = 0xF4`, and `status = Loading`. -/
def State.reset : State where
  regs := #v[0, 0, 0, 0, 0, 0, 0, Config.spReset]
  pc := Config.pcReset
  flags := ⟨false, false, false⟩
  flv := false
  mem := []
  status := .loading
  fault := none
  events := []

/-- The reasons a step could stop with no next state: none. Every fatal error of this hardware has a described state
after it (R151: Aborted, with the fault record), so it is a next state (log entry 4). Raised by nobody; safe. -/
inductive Fault
deriving DecidableEq, Repr

/-- The reasons an instruction could be refused. -/
inductive Refusal where
  /-- No meaning yet for the instruction of this mnemonic. Raised by an arm of `exec` that is not written; every arm
  is, so nobody raises it. Safe: the machine stops where the hardware goes on. -/
  | notModelled (mnemonic : String)
deriving DecidableEq, Repr

/-- The outcome of a step or of an instruction. -/
abbrev Result := Host.Outcome State Fault Refusal

end Sys2Proof.Machine
end

