-- ==== Sys2Proof/Machine/Ops.lean ====
section
/-! DEFINITION. The named operations over memory, registers and events, and the fatal mechanism
(spec/20_memory.md R50 to R54, R64; spec/10_state.md R20 to R25; spec/60_exceptions.md R151). -/

namespace Sys2Proof.Machine

/-! ### Memory -/

/-- Every listed address is above `a`. -/
def Memory.above (a : Nat) : Memory → Bool
  | [] => true
  | (b, _) :: m => decide (a < b) && Memory.above a m

/-- The canonical form: addresses strictly rising and inside the 256 cells (R39), and no entry equal to what an
unlisted address reads as, so that equal memories are equal lists. -/
def Memory.wf : Memory → Bool
  | [] => true
  | (a, v) :: m =>
    decide (a < Config.memSize) && decide (v ≠ Config.unlistedByte) && Memory.above a m && Memory.wf m

/-- The byte of one cell; an unlisted cell is 0 (R39: "Every cell is 0 at reset"). -/
def Memory.peek : Memory → Nat → Byte
  | [], _ => Config.unlistedByte
  | (b, w) :: m, a => if a = b then w else Memory.peek m a

/-- `M[a] <- v`, keeping the canonical form. -/
def Memory.poke : Memory → Nat → Byte → Memory
  | [], a, v => if v = Config.unlistedByte then [] else [(a, v)]
  | (b, w) :: m, a, v =>
    if a < b then
      if v = Config.unlistedByte then (b, w) :: m else (a, v) :: (b, w) :: m
    else if a = b then
      if v = Config.unlistedByte then m else (a, v) :: m
    else (b, w) :: Memory.poke m a v

/-- `MemRead(a, 1)` (R53): none where it raises `MemoryBounds`. -/
def memRead (m : Memory) (a : Nat) : Option Byte :=
  if a < Config.memSize then some (m.peek a) else none

/-- `MemWrite(a, 1, v)` (R54): none where it raises `MemoryBounds`. -/
def memWrite (m : Memory) (a : Nat) (v : Byte) : Option Memory :=
  if a < Config.memSize then some (m.poke a v) else none

/-- Write a list of bytes at increasing addresses from `a` (R190). A byte whose address is outside memory is not
written: the loader never has one (R193). -/
def placeBytes (m : Memory) (a : Nat) : List Byte → Memory
  | [] => m
  | b :: bs => placeBytes ((memWrite m a b).getD m) (a + 1) bs

/-! ### Registers and the program counter -/

/-- Read of register `q` (R20, R25). -/
def State.reg (s : State) (q : Reg) : Byte := s.regs[q.val]

/-- `x[q] <- v` (R20). No register is hardwired (R21). -/
def State.setReg (s : State) (q : Reg) (v : Byte) : State := { s with regs := s.regs.set q.val v }

/-- `SP`, which is `x[7]` and no state of its own (R22). -/
def State.sp (s : State) : Byte := s.reg Config.spIndex

/-- `pc <- t`. -/
def State.setPc (s : State) (t : Nat) : State := { s with pc := t }

/-- The default advance `pc <- A + n`, exact and never wrapped (R99, R125 (e)). -/
def State.advance (s : State) (n : Nat) : State := s.setPc (s.pc + n)

/-- `M` becomes `m`. -/
def State.setMem (s : State) (m : Memory) : State := { s with mem := m }

/-! ### Events -/

/-- Emit one event (R140, R97, R151). -/
def State.emit (s : State) (e : Event) : State := { s with events := s.events ++ [e] }

/-- The byte an event puts on OUT, if it is an OUT event. -/
def Event.outByte : Event → Option Byte
  | .out v => some v
  | .report _ _ => none
  | .fatal _ => none
  | .loadError _ => none

/-- The event belongs to DIAG. -/
def Event.onDiag : Event → Bool
  | .out _ => false
  | .report _ _ => true
  | .fatal _ => true
  | .loadError _ => true

/-- The OUT channel: the bytes emitted by PRN, in order (R140, R166). -/
def State.out (s : State) : List Byte := s.events.filterMap Event.outByte

/-- The DIAG channel: its events, in order (R166). -/
def State.diag (s : State) : List Event := s.events.filter Event.onDiag

/-! ### The fatal mechanism -/

/-- `raise <Cause>` (R151): the machine is Aborted, the fault record is set and presented as one `Fatal` event, and
nothing else is written; `pc` stays at the failing instruction (R163). There is no handler (R160) and no return from
it (R161: "There is no return instruction and nothing to return from"), so no operation stands beside it. -/
def State.raise (s : State) (cause : Cause) (ir : Option Byte) (addr : Option Nat) : State :=
  let record : FaultRecord := ⟨cause, s.pc, ir, addr⟩
  { s.emit (.fatal record) with status := .aborted, fault := some record }

/-- Read a data byte, or raise `MemoryBounds` (R53). `ir` is the opcode of the instruction that reads. -/
def State.loadByte (s : State) (ir : Byte) (a : Nat) (k : Byte → Result) : Result :=
  match memRead s.mem a with
  | none => .next (s.raise .memoryBounds (some ir) (some a))
  | some v => k v

/-- Write a data byte, or raise `MemoryBounds` (R54). `ir` is the opcode of the instruction that writes. -/
def State.storeByte (s : State) (ir : Byte) (a : Nat) (v : Byte) (k : State → Result) : Result :=
  match memWrite s.mem a v with
  | none => .next (s.raise .memoryBounds (some ir) (some a))
  | some m => k (s.setMem m)

end Sys2Proof.Machine
end

