-- ==== Sys2Proof/Machine/Flags.lean ====
section
/-! DEFINITION. The one flag computation, and the one flag condition (spec/42_alu.md R122; spec/10_state.md R30, R31). -/

namespace Sys2Proof.Machine

/-- The flags CMP writes: an unsigned three-way comparison of two bytes (R122). -/
def compareFlags (a b : Byte) : Flags where
  equal := decide (a.toNat = b.toNat)
  greater := decide (a.toNat > b.toNat)
  less := decide (a.toNat < b.toNat)

/-- Write all three flags and make them readable: `FLV <- true` (R30, R31, R122). -/
def State.setFlags (s : State) (f : Flags) : State := { s with flags := f, flv := true }

/-- Exactly one of the three flags is true (R122: "exactly one of them is true after any CMP"). -/
def Flags.exactlyOne : Flags → Bool
  | ⟨true, false, false⟩ => true
  | ⟨false, true, false⟩ => true
  | ⟨false, false, true⟩ => true
  | _ => false

/-- Read `FL.E`, or raise `FlagsUndefined` before any CMP (R31, R131, R132, R154). No other flag is ever read (R30). -/
def State.withEqualFlag (s : State) (ir : Byte) (k : Bool → Result) : Result :=
  if s.flv then k s.flags.equal else .next (s.raise .flagsUndefined (some ir) none)

end Sys2Proof.Machine
end

