-- ==== Sys2Proof/Machine/Operands.lean ====
section
/-! DEFINITION. The operand forms: a register byte, checked, and a pair of them (spec/30_encoding.md R74, R75;
spec/40_fetch_decode_execute.md R95). An immediate is its byte, used as it is (R75), and needs no operation. -/

namespace Sys2Proof.Machine

/-- The register a register byte selects: the whole byte, not masked; none for 8..255 (R74). -/
def regOf (o : Byte) : Option Reg :=
  if h : o.toNat < 8 then some ⟨o.toNat, h⟩ else none

/-- The byte that names a register in an encoding (R74). -/
def regByte (q : Reg) : Byte := BitVec.ofNat 8 q.val

/-- The register-index check of one operand byte, read at address `addr` (R95): raise `RegisterIndex`, or go on with
the register. -/
def State.withReg (s : State) (ir o : Byte) (addr : Nat) (k : Reg → Result) : Result :=
  match regOf o with
  | none => .next (s.raise .registerIndex (some ir) (some addr))
  | some q => k q

/-- The register-index check of format RR (R95): the first operand, then the second. -/
def State.withRegs (s : State) (ir o1 o2 : Byte) (k : Reg → Reg → Result) : Result :=
  s.withReg ir o1 (s.pc + 1) fun a => s.withReg ir o2 (s.pc + 2) fun b => k a b

end Sys2Proof.Machine
end

