-- ==== Sys2Proof/Machine/Alu.lean ====
section
/-! DEFINITION. The ALU block and its instructions MUL and CMP (spec/42_alu.md R120 to R126). -/

namespace Sys2Proof.Machine

/-- An operation name given to the ALU (R120): the recognised set is {MUL, CMP, ADD}. -/
inductive AluOp where
  | mul
  | cmp
  | add
  /-- Any name outside the recognised set (R124). -/
  | other (name : String)
deriving DecidableEq, Repr

/-- Write an exact arithmetic result into register `a`: modulo 256, but a result over 255 for register 7 violates the
stack-pointer invariant (R23, R121, R123, R153). -/
def State.aluWrite (s : State) (a : Reg) (exact : Nat) : Except Cause State :=
  if a = Config.spIndex ∧ exact > 255 then .error .stackPointerRange
  else .ok (s.setReg a (BitVec.ofNat 8 (exact % 256)))

/-- The ALU (R120, R126): an operation on two registers, which writes the register file or the flags only, or the cause
of its failure. ADD is reached by no opcode (R78, R123). -/
def alu (op : AluOp) (a b : Reg) (s : State) : Except Cause State :=
  match op with
  | .mul => s.aluWrite a ((s.reg a).toNat * (s.reg b).toNat)
  | .cmp => .ok (s.setFlags (compareFlags (s.reg a) (s.reg b)))
  | .add => s.aluWrite a ((s.reg a).toNat + (s.reg b).toNat)
  | .other _ => .error .aluUnsupportedOperation

/-- One ALU instruction of format RR (R120): the ALU's result and the default advance, or its error, raised
(log entry 8). -/
def State.aluInstr (s : State) (ir : Byte) (op : AluOp) (a b : Reg) : Result :=
  match alu op a b s with
  | .error c => .next (s.raise c (some ir) none)
  | .ok t => .next (t.advance 3)

/-- `MUL regA, regB` (R121): `x[regA] <- (x[regA] * x[regB]) mod 256`. -/
def execMul (a b : Byte) (s : State) : Result :=
  s.withRegs (Instr.mul a b).opcode a b fun ra rb => s.aluInstr (Instr.mul a b).opcode .mul ra rb

/-- `CMP regA, regB` (R122): the three flags and `FLV`. -/
def execCmp (a b : Byte) (s : State) : Result :=
  s.withRegs (Instr.cmp a b).opcode a b fun ra rb => s.aluInstr (Instr.cmp a b).opcode .cmp ra rb

end Sys2Proof.Machine
end

