-- ==== Sys2Proof/Machine/ControlTransfer.lean ====
section
/-! DEFINITION. The jumps JMP, JEQ and JNE (spec/43_control_transfer.md R130 to R133). -/

namespace Sys2Proof.Machine

/-- `pc <- x[q]`: register-indirect and absolute (R133). -/
def State.jumpTo (s : State) (q : Reg) : State := s.setPc (s.reg q).toNat

/-- `JMP reg` (R130). -/
def execJmp (r : Byte) (s : State) : Result :=
  s.withReg (Instr.jmp r).opcode r (s.pc + 1) fun q => .next (s.jumpTo q)

/-- `JEQ reg` (R131): the register byte is checked before the flags are read, whether or not the jump is taken (R95). -/
def execJeq (r : Byte) (s : State) : Result :=
  s.withReg (Instr.jeq r).opcode r (s.pc + 1) fun q =>
    s.withEqualFlag (Instr.jeq r).opcode fun e => .next (if e then s.jumpTo q else s.advance 2)

/-- `JNE reg` (R132): taken when `FL.E` is false. -/
def execJne (r : Byte) (s : State) : Result :=
  s.withReg (Instr.jne r).opcode r (s.pc + 1) fun q =>
    s.withEqualFlag (Instr.jne r).opcode fun e => .next (if e then s.advance 2 else s.jumpTo q)

end Sys2Proof.Machine
end

