-- ==== Sys2Proof/Machine/DataMovement.lean ====
section
/-! DEFINITION. The data movement instructions LDI, ST, PUSH and POP (spec/41_data_movement.md R110 to R113). -/

namespace Sys2Proof.Machine

/-- `LDI reg, value` (R110): `x[reg] <- value`. -/
def execLdi (r v : Byte) (s : State) : Result :=
  s.withReg (Instr.ldi r v).opcode r (s.pc + 1) fun q => .next ((s.setReg q v).advance 3)

/-- `ST regA, regB` (R111): `M[x[regA]] <- x[regB]`. -/
def execSt (a b : Byte) (s : State) : Result :=
  s.withRegs (Instr.st a b).opcode a b fun ra rb =>
    s.storeByte (Instr.st a b).opcode (s.reg ra).toNat (s.reg rb) fun t => .next (t.advance 3)

/-- `PUSH reg` (R112): the write comes first, at the undecremented `SP`; a `SP` of 0 is fatal and nothing is written. -/
def execPush (r : Byte) (s : State) : Result :=
  s.withReg (Instr.push r).opcode r (s.pc + 1) fun q =>
    if s.sp = 0 then .next (s.raise .stackPointerRange (some (Instr.push r).opcode) none)
    else
      s.storeByte (Instr.push r).opcode s.sp.toNat (s.reg q) fun t =>
        .next ((t.setReg Config.spIndex (s.sp - 1)).advance 2)

/-- `POP reg` (R113): `SP` is incremented, then the byte at the new `SP` goes to the register, after the write of
`x[7]`; a `SP` of 255 is fatal and nothing is written. -/
def execPop (r : Byte) (s : State) : Result :=
  s.withReg (Instr.pop r).opcode r (s.pc + 1) fun q =>
    if s.sp = 255 then .next (s.raise .stackPointerRange (some (Instr.pop r).opcode) none)
    else
      s.loadByte (Instr.pop r).opcode (s.sp.toNat + 1) fun v =>
        .next (((s.setReg Config.spIndex (s.sp + 1)).setReg q v).advance 2)

end Sys2Proof.Machine
end

