-- ==== Sys2Proof/Machine/OutputHalt.lean ====
section
/-! DEFINITION. The output and halt instructions PRN and HLT (spec/44_output_and_halt.md R140, R142), and the default
arm of the loop, the unrecognised byte (spec/40_fetch_decode_execute.md R97). -/

namespace Sys2Proof.Machine

/-- `PRN reg` (R140): one event on the OUT channel, carrying the register's byte. -/
def execPrn (r : Byte) (s : State) : Result :=
  s.withReg (Instr.prn r).opcode r (s.pc + 1) fun q => .next ((s.emit (.out (s.reg q))).advance 2)

/-- `HLT` (R142): `status <- Halted`; `pc` stays at the HLT byte. -/
def execHlt (s : State) : Result := .next { s with status := .halted }

/-- An unrecognised byte (R97): one non-fatal report of the address and the byte, and `pc <- A + 1`. -/
def execUnrecognised (b : Byte) (s : State) : Result := .next ((s.emit (.report s.pc b)).advance 1)

end Sys2Proof.Machine
end

