-- ==== Sys2Proof/Machine/Dispatch.lean ====
section
/-! DEFINITION. The dispatch of the loop (spec/40_fetch_decode_execute.md R98): one arm per constructor of Instr. -/

namespace Sys2Proof.Machine

/-- What one instruction does to the state (R98). -/
def exec (i : Instr) (s : State) : Host.Outcome State Fault Refusal :=
  match i with
  -- data movement
  | .ldi r v => Sys2Proof.Machine.execLdi r v s
  | .st a b => Sys2Proof.Machine.execSt a b s
  | .push r => Sys2Proof.Machine.execPush r s
  | .pop r => Sys2Proof.Machine.execPop r s
  -- ALU
  | .mul a b => Sys2Proof.Machine.execMul a b s
  | .cmp a b => Sys2Proof.Machine.execCmp a b s
  -- control transfer
  | .jmp r => Sys2Proof.Machine.execJmp r s
  | .jeq r => Sys2Proof.Machine.execJeq r s
  | .jne r => Sys2Proof.Machine.execJne r s
  -- output, halt, and the default arm
  | .prn r => Sys2Proof.Machine.execPrn r s
  | .hlt => Sys2Proof.Machine.execHlt s
  | .unrecognised b => Sys2Proof.Machine.execUnrecognised b s

end Sys2Proof.Machine
end

