-- ==== Sys2Proof/Machine/Fetch.lean ====
section
/-! DEFINITION. Fetching an instruction from memory, and what a failed fetch does
(spec/40_fetch_decode_execute.md R92, R94; spec/30_encoding.md R83). -/

namespace Sys2Proof.Machine

/-- Fetch, decode and operand fetch (R92 to R94): the instruction at `pc`, read through `MemRead`. -/
def fetch (s : State) : Except DecodeError Instr := decodeAt (memRead s.mem) s.pc

/-- A byte of the instruction that cannot be read raises `MemoryBounds` with its address (R92, R94, R152). -/
def State.fetchFault (s : State) (e : DecodeError) : State := s.raise .memoryBounds e.ir (some e.addr)

/-- The machine with an instruction's bytes placed where it fetches next, and running: what a load leaves
(R190, R195), but at any `pc`. -/
def State.placeAtPc (s : State) (bytes : List Byte) : State :=
  { s with mem := placeBytes s.mem s.pc bytes, status := .running }

end Sys2Proof.Machine
end

