-- ==== Sys2Proof/Machine/Step.lean ====
section
/-! DEFINITION. The step of the machine (spec/40_fetch_decode_execute.md R90 to R101). -/

namespace Sys2Proof.Machine

/-- One step (R90): while Running, fetch one instruction and execute it, or abort where it cannot be fetched. In every
other status there is no step and the state is unchanged (R101). -/
def step (s : State) : Host.Outcome State Fault Refusal :=
  if s.status = .running then
    match fetch s with
    | .error e => .next (s.fetchFault e)
    | .ok i => exec i s
  else .next s

/-- `s` with the instruction of an opcode-table word where `step` fetches next. The program of this hardware is loaded
before it runs, so the machine is also set Running (log entry 2). -/
def State.withFetchWord (s : State) (nbits w : Nat) : State := s.placeAtPc (tableWordBytes nbits w)

end Sys2Proof.Machine
end

