-- ==== Sys2Proof/Machine/HostSide.lean ====
section
/-! DEFINITION. What the host does with the channels, outside the core and stated by the spec for completeness: the
text of a PRN event (spec/44_output_and_halt.md R141) and the exit status (spec/70_reset_and_hazards.md R196). No step
of the machine depends on it. -/

namespace Sys2Proof.Machine

/-- One digit, 0 to 15; the case of the letters is a parameter (R141). -/
def digitChar (hexCase : Config.HexCase) (d : Nat) : Char :=
  if d < 10 then Char.ofNat (48 + d)
  else
    match hexCase with
    | .lower => Char.ofNat (87 + d)
    | .upper => Char.ofNat (55 + d)

/-- The digits of `n` in front of `acc`; `fuel` bounds their number, and a byte has at most eight in base 2 and up. -/
def digitsInto (hexCase : Config.HexCase) (base : Nat) : Nat → Nat → List Char → List Char
  | 0, _, acc => acc
  | fuel + 1, n, acc =>
    let acc' := digitChar hexCase (n % base) :: acc
    if n < base then acc' else digitsInto hexCase base fuel (n / base) acc'

/-- The shortest digit string of a byte in a base, `0` for 0, no prefix (R141). -/
def digits (hexCase : Config.HexCase) (base : Nat) (v : Byte) : List Char :=
  digitsInto hexCase base 8 v.toNat []

/-- The line of a PRN event: hexadecimal, decimal and binary, in that order (R141), for given parameters and without
the newline that ends it (log entry 9). -/
def printedLine (separator : List Char) (hexCase : Config.HexCase) (v : Byte) : List Char :=
  digits hexCase 16 v ++ separator ++ digits hexCase 10 v ++ separator ++ digits hexCase 2 v

/-- The line this hardware's host writes for a byte: the two parameters are OPEN (R141, D20). -/
def hostLine (v : Byte) : List Char := printedLine Config.prnSeparator Config.prnHexCase v

/-- The standard output of a run so far: one line per OUT event, in order (R141). That it holds nothing else is the
model's choice (log entry 12): where the reports and the other events of DIAG go, the spec leaves open (R166, N17). -/
def State.stdout (s : State) : List (List Char) := s.out.map hostLine

/-- The exit status of the host's process once the machine has ended (R196): zero after HLT, non-zero after a failed
load, OPEN after a fatal execution error; none while the run goes on. That the three load errors end with the same
status is the model's choice: the spec says only that each is non-zero (log entry 13). -/
def State.exitStatus (s : State) : Option Nat :=
  match s.status with
  | .loading => none
  | .running => none
  | .halted => some 0
  | .loadFailed => some (Config.loadFailExitStatusPred + 1)
  | .aborted => some Config.abortExitStatus

end Sys2Proof.Machine
end

