-- ==== Sys2Proof/Machine/Loader.lean ====
section
/-! DEFINITION. The program loader: the LOAD channel, from the text of a program image to a running machine
(spec/70_reset_and_hazards.md R182, R185 to R195). It acts before the run, and not within a step (R41; log entry 2). -/

namespace Sys2Proof.Machine

/-- What the LOAD channel brings (R166, R185, R191): no resource, or a text, as its characters (log entry 7). -/
inductive Resource where
  | missing
  | text (chars : List Char)
deriving DecidableEq, Repr

/-- The lines of a text; a last line without a newline is a line (R186). -/
def splitLines : List Char → List (List Char)
  | [] => [[]]
  | c :: cs =>
    if c = '\n' then [] :: splitLines cs
    else
      match splitLines cs with
      | [] => [[c]]
      | l :: ls => (c :: l) :: ls

/-- A line up to its first `#` (R187). -/
def dropComment (line : List Char) : List Char := line.takeWhile fun c => c != '#'

/-- White space: space, tab and carriage return (R188). -/
def isBlank (c : Char) : Bool := c == ' ' || c == '\t' || c == '\r'

/-- A text without leading and trailing white space (R188). -/
def trim (l : List Char) : List Char := ((l.dropWhile isBlank).reverse.dropWhile isBlank).reverse

/-- What is left of a line without comment and white space (R187, R188). -/
def content (line : List Char) : List Char := trim (dropComment line)

/-- The contents of the retained lines: a line with nothing left is skipped and uses no address (R188, R189). -/
def retained (lines : List (List Char)) : List (List Char) :=
  (lines.map content).filter fun l => !l.isEmpty

/-- The value of a binary digit (R189). -/
def digitValue (c : Char) : Option Nat :=
  if c = '0' then some 0 else if c = '1' then some 1 else none

/-- The value of a string of binary digits, the first one the most significant (R189); none if a character is none. -/
def binaryValue (acc : Nat) : List Char → Option Nat
  | [] => some acc
  | c :: cs =>
    match digitValue c with
    | none => none
    | some d => binaryValue (2 * acc + d) cs

/-- A literal (R189): exactly eight binary digits, the first one bit 7. -/
def parseLiteral (l : List Char) : Option Byte :=
  if l.length = 8 then (binaryValue 0 l).map (BitVec.ofNat 8) else none

/-- The bytes of the retained lines, taken in order, when `room` cells are left: a line beyond the last cell is
`LoadOverflow` (R193), a line that is no literal is `LoadParse` (R192); the first line that fails decides
(log entry 6). -/
def lineBytes (room : Nat) : List (List Char) → Except LoadCause (List Byte)
  | [] => .ok []
  | l :: ls =>
    match room with
    | 0 => .error .overflow
    | room' + 1 =>
      match parseLiteral l with
      | none => .error .parse
      | some b =>
        match lineBytes room' ls with
        | .error c => .error c
        | .ok bs => .ok (b :: bs)

/-- The bytes of a program image (R185 to R193, R195), or the load error. -/
def imageBytes : Resource → Except LoadCause (List Byte)
  | .missing => .error .notFound
  | .text chars => lineBytes Config.memSize (retained (splitLines chars))

/-- Placement (R190) and the start of the run (R182): the bytes at increasing addresses from 0, `status <- Running`. -/
def State.install (s : State) (bytes : List Byte) : State :=
  { s with mem := placeBytes s.mem Config.loadBase bytes, status := .running }

/-- A load error (R191 to R194): `status <- LoadFailed`, one load-error event, nothing else. -/
def State.loadFail (s : State) (c : LoadCause) : State :=
  { s.emit (.loadError c) with status := .loadFailed }

/-- The byte-level view of the loader (R195): the bytes themselves are brought, at most 256 of them (R193). -/
def State.loadBytes (s : State) (bytes : List Byte) : State :=
  if s.status = .loading then
    if bytes.length ≤ Config.memSize then s.install bytes else s.loadFail .overflow
  else s

/-- The loader (R185): the whole image is parsed before anything is written (R194). It acts only while Loading
(R34, R166: "before the run only"). -/
def State.load (s : State) (r : Resource) : State :=
  if s.status = .loading then
    match imageBytes r with
    | .error c => s.loadFail c
    | .ok bytes => s.install bytes
  else s

end Sys2Proof.Machine
end

