-- ==== Sys2Proof/Safety.lean ====
section
/-! DEFINITION. What counts as a legal state, a safe run and its end, in the terms the statements use. -/

namespace Sys2Proof.Machine

/-- A run has ended exactly when the status is Halted or Aborted (R91). -/
abbrev State.Ended (s : State) : Prop := s.status = .halted ∨ s.status = .aborted

/-- A state is safe when no fatal execution error has stopped it (R150, R167). -/
abbrev State.Safe (s : State) : Prop := s.status ≠ .aborted

/-- An event a step may leave behind without ending the run: OUT, or a non-fatal report (R166). -/
def Event.ofRun : Event → Bool
  | .out _ => true
  | .report _ _ => true
  | .fatal _ => false
  | .loadError _ => false

/-- The load-error event of a failed load (R191 to R193). -/
def Event.isLoadError : Event → Bool
  | .loadError _ => true
  | .out _ => false
  | .report _ _ => false
  | .fatal _ => false

/-- The flags are at their reset values until the first CMP (R33), and from then on exactly one is true (R122). -/
abbrev State.FlagsOk (s : State) : Prop :=
  (s.flv = false → s.flags = ⟨false, false, false⟩) ∧ (s.flv = true → s.flags.exactlyOne = true)

/-- There is a fault record exactly when the machine is Aborted (R35); its pc is the machine's (R163), and it is the
last event and the only fatal one (R151, R166). -/
abbrev State.FaultOk (s : State) : Prop :=
  (s.status = .aborted ↔ s.fault.isSome = true) ∧
  ∀ r ∈ s.fault,
    r.pc = s.pc ∧ s.events.getLast? = some (.fatal r) ∧ s.events.dropLast.all Event.ofRun = true

/-- Before the run nothing has happened: in Loading every piece of state has its reset value, and in LoadFailed too, but
for the status and the one load-error event (R34, R194). While Running and when Halted there are run events only. -/
abbrev State.PhaseOk (s : State) : Prop :=
  (s.status = .loading → s = State.reset) ∧
  (s.status = .loadFailed →
    { s with status := .loading, events := [] } = State.reset ∧ s.events.length = 1 ∧
      s.events.all Event.isLoadError = true) ∧
  (s.status = .running ∨ s.status = .halted → s.events.all Event.ofRun = true)

/-- The invariant of the machine: memory in its canonical form and inside its 256 cells (R39), `pc` at most 256 (R27),
and the three conditions above. -/
abbrev State.Inv (s : State) : Prop :=
  s.mem.wf = true ∧ s.pc ≤ Config.memSize ∧ s.FlagsOk ∧ s.FaultOk ∧ s.PhaseOk

end Sys2Proof.Machine
end

