-- ==== Sys2Proof/Certificates/Slice0/Obligations.lean ====
section
/-! DEFINITION. The statements about the LS8-SC core, with the few predicates they are written in and the spec's own
pseudocode of the whole step (spec/40_fetch_decode_execute.md R100) as the reference of a refinement. -/

namespace Sys2Proof.Claims

open Sys2Proof.Machine

/-! ### What stays the same -/

/-- Every register reads as before. -/
def SameRegs (s t : State) : Prop := ∀ q : Reg, t.reg q = s.reg q

/-- Every register but `q` reads as before. -/
def SameRegsBut (q : Reg) (s t : State) : Prop := ∀ p : Reg, p ≠ q → t.reg p = s.reg p

/-- Every byte of memory reads as before. -/
def SameMem (s t : State) : Prop := ∀ a, memRead t.mem a = memRead s.mem a

/-- Every byte of memory outside address `a` reads as before. -/
def SameMemBut (a : Nat) (s t : State) : Prop := ∀ b, b ≠ a → memRead t.mem b = memRead s.mem b

/-- The three flags and the flags-valid bit are as before. -/
def SameFlags (s t : State) : Prop := t.flags = s.flags ∧ t.flv = s.flv

/-- The status and the fault record are as before. -/
def SameControl (s t : State) : Prop := t.status = s.status ∧ t.fault = s.fault

/-- Nothing was emitted. -/
def SameEvents (s t : State) : Prop := t.events = s.events

/-- `t` is `s` after a fatal error: Aborted, the record set, one `Fatal` event that presents it, all else as before. -/
def AbortedBy (s t : State) (c : Cause) (ir : Option Byte) (addr : Option Nat) : Prop :=
  t.status = .aborted ∧ t.fault = some ⟨c, s.pc, ir, addr⟩ ∧ t.events = s.events ++ [.fatal ⟨c, s.pc, ir, addr⟩] ∧
  SameRegs s t ∧ SameMem s t ∧ SameFlags s t ∧ t.pc = s.pc

/-- The outcome is a next state, aborted so. -/
def Aborts (s : State) (res : Result) (c : Cause) (ir : Option Byte) (addr : Option Nat) : Prop :=
  ∃ t, res = .next t ∧ AbortedBy s t c ir addr

/-- The register that the operand byte at address `a` names, read from memory. -/
def OperandAt (s : State) (a : Nat) (q : Reg) : Prop := ∃ o, memRead s.mem a = some o ∧ regOf o = some q

/-- The byte at `pc` is `b`: the machine is about to execute that opcode. -/
abbrev AtOpcode (s : State) (b : Byte) : Prop := memRead s.mem s.pc = some b

/-! ### The pseudocode of R100, over integers -/

/-- The state of the pseudocode: integers, with memory and registers as arrays. -/
structure PState where
  x : Nat → Nat
  pc : Nat
  M : Nat → Nat
  E : Bool
  G : Bool
  L : Bool
  FLV : Bool
  status : Status
  fault : Option FaultRecord
  events : List Event

/-- `f[i] <- v`. -/
def update (f : Nat → Nat) (i v : Nat) : Nat → Nat := fun j => if j = i then v else f j

/-- A byte as it stands in an event or a record. -/
def byte (n : Nat) : Byte := BitVec.ofNat 8 n

namespace PState

variable (p : PState)

/-- `abort(c, ir, addr)`, with `pc = A`. -/
def abort (c : Cause) (ir : Option Nat) (addr : Option Nat) : PState :=
  { p with
    status := .aborted
    fault := some ⟨c, p.pc, ir.map byte, addr⟩
    events := p.events ++ [.fatal ⟨c, p.pc, ir.map byte, addr⟩] }

/-- `operand1()`. -/
def operand1 (k : Nat → PState) : PState :=
  if p.pc + 1 > 255 then p.abort .memoryBounds (some (p.M p.pc)) (some (p.pc + 1)) else k (p.M (p.pc + 1))

/-- `operands2()`. -/
def operands2 (k : Nat → Nat → PState) : PState :=
  if p.pc + 1 > 255 then p.abort .memoryBounds (some (p.M p.pc)) (some (p.pc + 1))
  else if p.pc + 2 > 255 then p.abort .memoryBounds (some (p.M p.pc)) (some (p.pc + 2))
  else k (p.M (p.pc + 1)) (p.M (p.pc + 2))

/-- `reg(o, addr)`. -/
def checkReg (o addr : Nat) (k : PState) : PState :=
  if o > 7 then p.abort .registerIndex (some (p.M p.pc)) (some addr) else k

/-- `step()`, line by line from R100. -/
def step : PState :=
  if p.pc > 255 then p.abort .memoryBounds none (some p.pc)
  else if p.M p.pc = 0x01 then { p with status := .halted }
  else if p.M p.pc = 0x82 then
    p.operands2 fun r v => p.checkReg r (p.pc + 1) { p with x := update p.x r v, pc := p.pc + 3 }
  else if p.M p.pc = 0x47 then
    p.operand1 fun r => p.checkReg r (p.pc + 1)
      { p with events := p.events ++ [.out (byte (p.x r))], pc := p.pc + 2 }
  else if p.M p.pc = 0xA2 then
    p.operands2 fun a b => p.checkReg a (p.pc + 1) <| p.checkReg b (p.pc + 2) <|
      if a = 7 ∧ p.x a * p.x b > 255 then p.abort .stackPointerRange (some (p.M p.pc)) none
      else { p with x := update p.x a (p.x a * p.x b % 256), pc := p.pc + 3 }
  else if p.M p.pc = 0xA7 then
    p.operands2 fun a b => p.checkReg a (p.pc + 1) <| p.checkReg b (p.pc + 2)
      { p with
        E := decide (p.x a = p.x b), G := decide (p.x a > p.x b), L := decide (p.x a < p.x b)
        FLV := true, pc := p.pc + 3 }
  else if p.M p.pc = 0x45 then
    p.operand1 fun r => p.checkReg r (p.pc + 1) <|
      if p.x 7 = 0 then p.abort .stackPointerRange (some (p.M p.pc)) none
      else { p with M := update p.M (p.x 7) (p.x r), x := update p.x 7 (p.x 7 - 1), pc := p.pc + 2 }
  else if p.M p.pc = 0x46 then
    p.operand1 fun r => p.checkReg r (p.pc + 1) <|
      if p.x 7 = 255 then p.abort .stackPointerRange (some (p.M p.pc)) none
      else { p with x := update (update p.x 7 (p.x 7 + 1)) r (p.M (p.x 7 + 1)), pc := p.pc + 2 }
  else if p.M p.pc = 0x84 then
    p.operands2 fun a b => p.checkReg a (p.pc + 1) <| p.checkReg b (p.pc + 2)
      { p with M := update p.M (p.x a) (p.x b), pc := p.pc + 3 }
  else if p.M p.pc = 0x54 then
    p.operand1 fun r => p.checkReg r (p.pc + 1) { p with pc := p.x r }
  else if p.M p.pc = 0x55 then
    p.operand1 fun r => p.checkReg r (p.pc + 1) <|
      if p.FLV = false then p.abort .flagsUndefined (some (p.M p.pc)) none
      else if p.E then { p with pc := p.x r } else { p with pc := p.pc + 2 }
  else if p.M p.pc = 0x56 then
    p.operand1 fun r => p.checkReg r (p.pc + 1) <|
      if p.FLV = false then p.abort .flagsUndefined (some (p.M p.pc)) none
      else if p.E then { p with pc := p.pc + 2 } else { p with pc := p.x r }
  else { p with events := p.events ++ [.report p.pc (byte (p.M p.pc))], pc := p.pc + 1 }

end PState

/-- The state of the model as the pseudocode sees it. -/
def view (s : State) : PState where
  x := fun i => if h : i < 8 then (s.reg ⟨i, h⟩).toNat else 0
  pc := s.pc
  M := fun a => (s.mem.peek a).toNat
  E := s.flags.equal
  G := s.flags.greater
  L := s.flags.less
  FLV := s.flv
  status := s.status
  fault := s.fault
  events := s.events

/-! ### Texts of program images -/

/-- The eight binary digits of a byte, bit 7 first. -/
def literal (b : Byte) : List Char :=
  [7, 6, 5, 4, 3, 2, 1, 0].map fun k => if b.getLsbD k then '1' else '0'

/-- An image with one literal line per byte. -/
def imageText (bytes : List Byte) : List Char := bytes.flatMap fun b => literal b ++ ['\n']

/-- White space: space, tab, carriage return (R188; decision D24). -/
def Blank (c : Char) : Prop := c = ' ' ∨ c = '\t' ∨ c = '\r'

/-- Nothing but white space. -/
def AllBlank (l : List Char) : Prop := ∀ c ∈ l, Blank c

/-- Nothing, or a comment: a `#` and whatever follows it (R187). -/
def Comment (l : List Char) : Prop := l = [] ∨ l.head? = some '#'

/-- A line that is blank or only a comment (R188). -/
def SkippedLine (line : List Char) : Prop :=
  ∃ blanks comment, AllBlank blanks ∧ Comment comment ∧ line = blanks ++ comment

/-- A line that holds the literal of `b`, with white space on either side and an optional comment (R185, R188, R189). -/
def LiteralLine (line : List Char) (b : Byte) : Prop :=
  ∃ before after comment, AllBlank before ∧ AllBlank after ∧ Comment comment ∧
    line = before ++ literal b ++ after ++ comment

/-- The lines of an image give these bytes: one byte for each literal line, in order, none for a skipped line, and
there is no other line (R188 to R190, R192). -/
inductive LinesGive : List (List Char) → List Byte → Prop
  | nothing : LinesGive [] []
  | skip {line lines bytes} : SkippedLine line → LinesGive lines bytes → LinesGive (line :: lines) bytes
  | byte {line lines b bytes} : LiteralLine line b → LinesGive lines bytes → LinesGive (line :: lines) (b :: bytes)

/-- `cs` is the text of these lines, with a newline between one and the next (R186). -/
def TextOf (lines : List (List Char)) (cs : List Char) : Prop :=
  (∀ line ∈ lines, '\n' ∉ line) ∧ cs = List.intercalate ['\n'] lines

/-- The value of a digit string in a base, by the digits' usual values. -/
def digitsValue (base : Nat) (l : List Char) : Nat :=
  l.foldl (fun n c => n * base + (if c.toNat ≤ 57 then c.toNat - 48 else if c.toNat ≤ 70 then c.toNat - 55 else c.toNat - 87)) 0

/-- The sixteen digits, in the order of their values, in either case of the letters (R141). -/
def digitChars : Config.HexCase → List Char
  | .lower => "0123456789abcdef".toList
  | .upper => "0123456789ABCDEF".toList

/-- `s` with other values of the two flags that no instruction reads. -/
def withGreaterLess (s : State) (g l : Bool) : State := { s with flags := ⟨s.flags.equal, g, l⟩ }

end Sys2Proof.Claims

open Sys2Proof Sys2Proof.Machine Sys2Proof.Claims

/-! ## Reset and the loader -/

/-- Reset leaves the values of the table in 10_state.md section 7 (and 70_reset_and_hazards.md section 1). The rows of
`FLV`, `status` and `fault`, and where the stack pointer lives, are the spec's decisions D4, D17, D18 and D3. -/
def Obligations.ResetLeavesTabledValues : Prop :=
  (∀ q : Reg, State.reset.reg q = if q = 7 then 0xF4 else 0) ∧ State.reset.pc = 0 ∧
  State.reset.flags = ⟨false, false, false⟩ ∧ State.reset.flv = false ∧
  (∀ a, a ≤ 255 → memRead State.reset.mem a = some 0) ∧ State.reset.status = .loading ∧
  State.reset.fault = none ∧ State.reset.out = [] ∧ State.reset.diag = []

/-- The invariant of the model holds right after reset. -/
def Obligations.ResetMeetsInvariant : Prop := State.reset.Inv

/-- Every step keeps the invariant: canonical memory within 256 cells, `pc` at most 256, flags at reset values until
the first CMP and exactly one true from then on, a fault record exactly when Aborted, presented as the one and last
`Fatal` event, and nothing but the load's outcome changed before the run. -/
def Obligations.StepKeepsInvariant : Prop := ∀ s t : State, s.Inv → step s = .next t → t.Inv

/-- The loader keeps the invariant, whatever it is given. -/
def Obligations.LoadKeepsInvariant : Prop := ∀ (s : State) (r : Resource), s.Inv → (s.load r).Inv

/-- A good image of bytes `bs` leaves the start state of 10_state.md section 7: byte `k` at address `k` from 0, every
other cell 0, every other piece of state at its reset value, `status = Running`. -/
def Obligations.LoadPlacesImageBytes : Prop :=
  ∀ (r : Resource) (bs : List Byte), imageBytes r = .ok bs →
    (State.reset.load r).status = .running ∧ bs.length ≤ 256 ∧
    (∀ a, a ≤ 255 → memRead (State.reset.load r).mem a = some (bs.getD a 0)) ∧
    SameRegs State.reset (State.reset.load r) ∧ SameFlags State.reset (State.reset.load r) ∧
    (State.reset.load r).pc = 0 ∧ (State.reset.load r).fault = none ∧ (State.reset.load r).events = []

/-- A load error leaves LoadFailed and one load-error event, every other piece of state at its reset value, and no
step is ever taken (that the whole image is parsed first is the spec's decision D23). -/
def Obligations.FailedLoadLeavesResetState : Prop :=
  ∀ (r : Resource) (c : LoadCause), imageBytes r = .error c →
    (State.reset.load r).status = .loadFailed ∧ (State.reset.load r).diag = [.loadError c] ∧
    (State.reset.load r).out = [] ∧ SameRegs State.reset (State.reset.load r) ∧ SameMem State.reset (State.reset.load r) ∧
    SameFlags State.reset (State.reset.load r) ∧ (State.reset.load r).pc = 0 ∧ (State.reset.load r).fault = none ∧
    step (State.reset.load r) = .next (State.reset.load r)

/-- An image is good exactly when it is a text of lines of which each is a literal line, or blank or only a comment,
with at most 256 literal lines (decision D22): its bytes are those of the literal lines in order, and no bad line is
dropped or read as 0. A missing resource is `LoadNotFound`. -/
def Obligations.GoodImagesExactly : Prop :=
  imageBytes .missing = .error .notFound ∧
  ∀ (cs : List Char) (bs : List Byte),
    imageBytes (.text cs) = .ok bs ↔ bs.length ≤ 256 ∧ ∃ lines, TextOf lines cs ∧ LinesGive lines bs

/-- A literal is exactly the eight binary digits of a byte, bit 7 first (decision D21). -/
def Obligations.LiteralsAreEightBinaryDigits : Prop :=
  ∀ (l : List Char) (b : Byte), parseLiteral l = some b ↔ l = literal b

/-- A line that is blank or only a comment uses no address, wherever it stands: without it the image gives the same
bytes, or the same load error. It may be the first line, the last one without a final newline, any line between, or
the whole image. What white space is, is decision D24; which load error, log entry 6. -/
def Obligations.SkippedLinesUseNoAddress : Prop :=
  ∀ before line after : List Char, '\n' ∉ line → SkippedLine line →
    imageBytes (.text (before ++ '\n' :: (line ++ '\n' :: after))) = imageBytes (.text (before ++ '\n' :: after)) ∧
    imageBytes (.text (line ++ '\n' :: after)) = imageBytes (.text after) ∧
    imageBytes (.text (before ++ '\n' :: line)) = imageBytes (.text before) ∧
    imageBytes (.text line) = .ok []

/-- Every list of at most 256 bytes has an image, one literal line per byte, that loads as those bytes. -/
def Obligations.ImageTextRoundTrip : Prop :=
  ∀ bs : List Byte, bs.length ≤ 256 → imageBytes (.text (imageText bs)) = .ok bs

/-! ## Encoding -/

/-- R72 and R76: the opcode map and the lengths. The whole opcode byte is compared with the eleven values; operand
bytes follow it; any other byte is unrecognised, of length 1. -/
def Obligations.OpcodeMapAndLengths : Prop :=
  (∀ o1 o2 : Byte,
    decode [0x82, o1, o2] = .ok (.ldi o1 o2) ∧ decode [0x47, o1] = .ok (.prn o1) ∧
    decode [0xA2, o1, o2] = .ok (.mul o1 o2) ∧ decode [0xA7, o1, o2] = .ok (.cmp o1 o2) ∧
    decode [0x45, o1] = .ok (.push o1) ∧ decode [0x46, o1] = .ok (.pop o1) ∧
    decode [0x84, o1, o2] = .ok (.st o1 o2) ∧ decode [0x54, o1] = .ok (.jmp o1) ∧
    decode [0x55, o1] = .ok (.jeq o1) ∧ decode [0x56, o1] = .ok (.jne o1) ∧ decode [0x01] = .ok .hlt) ∧
  (∀ b ∈ [0x82, 0xA2, 0xA7, 0x84], opcodeLength b = 3) ∧
  (∀ b ∈ [0x47, 0x45, 0x46, 0x54, 0x55, 0x56], opcodeLength b = 2) ∧ opcodeLength 0x01 = 1 ∧
  (∀ b : Byte, b ∉ [0x82, 0x47, 0xA2, 0xA7, 0x45, 0x46, 0x84, 0x54, 0x55, 0x56, 0x01] →
    decode [b] = .ok (.unrecognised b) ∧ opcodeLength b = 1)

/-- Decoding an encoded instruction gives it back, with every operand byte at every value, whatever bytes follow. -/
def Obligations.DecodeOfEncode : Prop :=
  ∀ (i : Instr) (rest : List Byte), i.encodable = true → decode (encode i ++ rest) = .ok i

/-- Each sequence of bytes has one meaning: what decodes to an instruction begins with that instruction's encoding. -/
def Obligations.EncodeOfDecode : Prop :=
  ∀ (bytes : List Byte) (i : Instr), decode bytes = .ok i → i.encodable = true ∧ encode i <+: bytes

/-- Words written out from the spec's encodings decode to the instructions they stand for (95_test_vectors.md S1 and
part 3). The byte 0xA0 is no ADD (decision D8). -/
def Obligations.SpecWordsDecode : Prop :=
  decodeTableWord 24 0x080082 = some (.ldi 0 8) ∧ decodeTableWord 16 0x0047 = some (.prn 0) ∧
  decodeTableWord 24 0x0100A2 = some (.mul 0 1) ∧ decodeTableWord 24 0x0200A7 = some (.cmp 0 2) ∧
  decodeTableWord 24 0x010084 = some (.st 0 1) ∧ decodeTableWord 16 0x0356 = some (.jne 3) ∧
  decodeTableWord 8 0x01 = some .hlt ∧ decodeTableWord 8 0xA0 = some (.unrecognised 0xA0)

/-! ## The step -/

/-- While Running, a step is the execution of the instruction fetched at `pc`; there is nothing around it. -/
def Obligations.StepRunsFetchedInstruction : Prop :=
  ∀ (s : State) (i : Instr), s.status = .running → fetch s = .ok i → step s = exec i s

/-- Where the bytes from `pc` on are an instruction's encoding, a step executes that instruction. -/
def Obligations.StepRunsEncodedInstruction : Prop :=
  ∀ (s : State) (i : Instr), s.status = .running → i.encodable = true →
    (∀ (k : Nat) (h : k < (encode i).length), memRead s.mem (s.pc + k) = some (encode i)[k]) →
    step s = exec i s

/-- In Loading, LoadFailed, Halted and Aborted the step leaves the state as it is. -/
def Obligations.StepOnlyWhileRunning : Prop :=
  ∀ s : State, s.status ≠ .running → step s = .next s

/-- A running machine always has a next state: no step faults, is refused or waits, in any state. -/
def Obligations.EveryStepAnswers : Prop := ∀ s : State, ∃ t, step s = .next t

/-- An opcode fetch at 256 or above aborts with no opcode in the record (that `pc` may hold 256 is decision D6, that
nothing else changes D9). -/
def Obligations.OpcodeFetchPastMemoryAborts : Prop :=
  ∀ s : State, s.status = .running → 256 ≤ s.pc → Aborts s (step s) .memoryBounds none (some s.pc)

/-- An instruction that reaches over the end of memory aborts at its first byte outside, which is 256: a two-byte one
at 255, a three-byte one at 254 or 255. No flag and no operand is looked at before (decisions D9, D10, D11). -/
def Obligations.OperandFetchPastMemoryAborts : Prop :=
  ∀ (s : State) (ir : Byte), s.status = .running → AtOpcode s ir → 256 < s.pc + opcodeLength ir →
    Aborts s (step s) .memoryBounds (some ir) (some 256)

/-- A register byte of 8 to 255 aborts, the first operand before the second and before the instruction's own checks
(decisions D7, D9, D10, D11). LDI's immediate is not checked. -/
def Obligations.IllegalRegisterByteAborts : Prop :=
  (∀ (s : State) (r v : Byte), 8 ≤ r.toNat →
    ∀ i ∈ [Instr.ldi r v, .prn r, .push r, .pop r, .jmp r, .jeq r, .jne r],
      Aborts s (exec i s) .registerIndex (some i.opcode) (some (s.pc + 1))) ∧
  (∀ (s : State) (a b : Byte), ∀ i ∈ [Instr.mul a b, .cmp a b, .st a b],
    (8 ≤ a.toNat → Aborts s (exec i s) .registerIndex (some i.opcode) (some (s.pc + 1))) ∧
    (a.toNat ≤ 7 → 8 ≤ b.toNat → Aborts s (exec i s) .registerIndex (some i.opcode) (some (s.pc + 2))))

/-- A step that aborts has written nothing but `status` and `fault` and emitted nothing but the one `Fatal` event, and
the record's pc is the failing instruction's (decision D9; 60_exceptions.md section 5 on precision). -/
def Obligations.AbortIsPrecise : Prop :=
  ∀ s t : State, s.status = .running → step s = .next t → t.status = .aborted →
    ∃ c ir addr, AbortedBy s t c ir addr

/-- When a running step aborts, and with which cause: exactly the conditions of 60_exceptions.md section 2, in the
priority of its section 4 (decisions D4, D7, D10, D11, D13, D14). No step raises `AluUnsupportedOperation` (D31). -/
def Obligations.AbortCausesExactly : Prop :=
  ∀ s t : State, s.status = .running → step s = .next t →
    ((t.status = .aborted ∧ t.fault.map FaultRecord.cause = some .memoryBounds) ↔
      (256 ≤ s.pc ∨ ∃ ir, AtOpcode s ir ∧ 256 < s.pc + opcodeLength ir)) ∧
    ((t.status = .aborted ∧ t.fault.map FaultRecord.cause = some .registerIndex) ↔
      ∃ i, fetch s = .ok i ∧ i.regsLegal = false) ∧
    ((t.status = .aborted ∧ t.fault.map FaultRecord.cause = some .flagsUndefined) ↔
      ∃ q, s.flv = false ∧ (fetch s = .ok (.jeq (regByte q)) ∨ fetch s = .ok (.jne (regByte q)))) ∧
    ((t.status = .aborted ∧ t.fault.map FaultRecord.cause = some .stackPointerRange) ↔
      (∃ q, fetch s = .ok (.push (regByte q)) ∧ s.sp.toNat = 0) ∨
      (∃ q, fetch s = .ok (.pop (regByte q)) ∧ s.sp.toNat = 255) ∨
      (∃ q, fetch s = .ok (.mul 7 (regByte q)) ∧ s.sp.toNat * (s.reg q).toNat > 255)) ∧
    ¬ (t.status = .aborted ∧ t.fault.map FaultRecord.cause = some .aluUnsupportedOperation)

/-- R91: from Running a step leaves the status, or sets Halted (HLT alone), or Aborted (`raise` alone); Halted and
Aborted end the run and are terminal; a run that reaches neither is possible: while Running, a JMP to its own address
steps to the very same state, and there is such a state. That Aborted is a status of its own is decision D17. -/
def Obligations.StatusTransitions : Prop :=
  (∀ s t : State, step s = .next t →
    (s.status = .running →
      (t.status = .running ∨ t.status = .halted ∨ t.status = .aborted) ∧
      (t.status = .halted ↔ AtOpcode s 0x01) ∧
      (t.status = .aborted ↔ ∃ c ir addr, t = s.raise c ir addr)) ∧
    (s.Ended → t = s)) ∧
  (∀ (s : State) (q : Reg), s.status = .running → AtOpcode s 0x54 → OperandAt s (s.pc + 1) q →
    (s.reg q).toNat = s.pc → step s = .next s) ∧
  (∃ s : State, s.status = .running ∧ AtOpcode s 0x54 ∧ step s = .next s)

/-- How an instruction that completes leaves `pc`, as R99 has it. That HLT leaves it at the HLT byte is decision D12,
that the addition is not wrapped is D6 (log entry 10). -/
def Obligations.ProgramCounterUpdate : Prop :=
  ∀ s t : State, s.status = .running → step s = .next t → t.status ≠ .aborted →
    (∀ ir ∈ [0x82, 0xA2, 0xA7, 0x84], AtOpcode s ir → t.pc = s.pc + 3) ∧
    (∀ ir ∈ [0x47, 0x45, 0x46], AtOpcode s ir → t.pc = s.pc + 2) ∧
    (AtOpcode s 0x54 → ∃ q, OperandAt s (s.pc + 1) q ∧ t.pc = (s.reg q).toNat) ∧
    (AtOpcode s 0x55 → ∃ q, OperandAt s (s.pc + 1) q ∧ t.pc = if s.flags.equal then (s.reg q).toNat else s.pc + 2) ∧
    (AtOpcode s 0x56 → ∃ q, OperandAt s (s.pc + 1) q ∧ t.pc = if s.flags.equal then s.pc + 2 else (s.reg q).toNat) ∧
    (AtOpcode s 0x01 → t.pc = s.pc)

/-- R32: between two CMPs no step changes a flag or the flags-valid bit, whatever it executes. -/
def Obligations.FlagsKeptUntilNextCompare : Prop :=
  ∀ s t : State, step s = .next t → ¬ AtOpcode s 0xA7 → SameFlags s t

/-- Once a CMP has executed the flags stay readable, and nothing but a CMP makes them so (decision D4). -/
def Obligations.FlagsValidOnlyByCompare : Prop :=
  ∀ s t : State, step s = .next t →
    (s.flv = true → t.flv = true) ∧ (s.flv = false → t.flv = true → s.status = .running ∧ AtOpcode s 0xA7)

/-- No instruction reads Greater or Less: a step from a state with other values of the two goes to the same state with
those other values, or, where a CMP completes, to the very same state. -/
def Obligations.GreaterAndLessAreNeverRead : Prop :=
  ∀ (s t : State) (g l : Bool), step s = .next t →
    (¬ AtOpcode s 0xA7 ∨ t.status ≠ .running → step (withGreaterLess s g l) = .next (withGreaterLess t g l)) ∧
    (AtOpcode s 0xA7 → t.status = .running → step (withGreaterLess s g l) = .next t)

/-- A step changes a byte of memory only by ST, at the address its first register holds, or by PUSH, at the stack
pointer. -/
def Obligations.MemoryChangesOnlyByStAndPush : Prop :=
  ∀ (s t : State) (a : Nat), s.mem.wf = true → step s = .next t → memRead t.mem a ≠ memRead s.mem a →
    (AtOpcode s 0x84 ∧ ∃ q, OperandAt s (s.pc + 1) q ∧ a = (s.reg q).toNat) ∨
    (AtOpcode s 0x45 ∧ a = s.sp.toNat)

/-- A step changes a register only as the table of 10_state.md section 1 says: LDI, MUL and POP their first operand,
PUSH and POP register 7 (register 7 as an ordinary operand is decision D15). -/
def Obligations.RegistersChangeOnlyAsTabled : Prop :=
  ∀ (s t : State) (q : Reg), step s = .next t → t.reg q ≠ s.reg q →
    ((AtOpcode s 0x82 ∨ AtOpcode s 0xA2 ∨ AtOpcode s 0x46) ∧ OperandAt s (s.pc + 1) q) ∨
    ((AtOpcode s 0x45 ∨ AtOpcode s 0x46) ∧ q = 7)

/-- A step emits at most one event and takes none back: an `Out` of the named register by PRN, a `Report` of the
address and the byte by an unrecognised byte (decision D16), or the `Fatal` event of the record it sets. -/
def Obligations.EventsOfAStep : Prop :=
  ∀ s t : State, step s = .next t →
    t.events = s.events ∨
    (∃ q, AtOpcode s 0x47 ∧ OperandAt s (s.pc + 1) q ∧ t.events = s.events ++ [.out (s.reg q)]) ∨
    (∃ b, AtOpcode s b ∧ b ∉ opcodeBytes ∧ t.events = s.events ++ [.report s.pc b]) ∨
    (∃ r, t.status = .aborted ∧ t.fault = some r ∧ t.events = s.events ++ [.fatal r])

/-- The step of the model is the pseudocode of the whole step (40_fetch_decode_execute.md section 3) on every running
state: fetch, decode, operands, checks in their order, effects and `pc`, over integers. The pseudocode is the spec's
own restatement and rests on its decisions D2 to D18. -/
def Obligations.StepRefinesPseudocode : Prop :=
  ∀ s : State, s.mem.wf = true → s.status = .running → ∃ t, step s = .next t ∧ view t = (view s).step

/-! ## The instructions: what each does, and that it completes -/

/-- LDI: encoding, effect, frame, and its two exceptions (that a register byte over 7 is fatal is decision D7, that an
abort changes nothing else D9). The immediate is never checked. -/
def Obligations.LdiLoadsImmediate : Prop :=
  (∀ r v : Byte, encode (.ldi r v) = [0x82, r, v]) ∧
  (∀ (s : State) (q : Reg) (v : Byte), ∃ t, exec (.ldi (regByte q) v) s = .next t ∧
    t.reg q = v ∧ t.pc = s.pc + 3 ∧
    SameRegsBut q s t ∧ SameMem s t ∧ SameFlags s t ∧ SameControl s t ∧ SameEvents s t) ∧
  (∀ (s : State) (r v : Byte), 8 ≤ r.toNat →
    Aborts s (exec (.ldi r v) s) .registerIndex (some 0x82) (some (s.pc + 1))) ∧
  (∀ s : State, s.status = .running → AtOpcode s 0x82 → 254 ≤ s.pc →
    Aborts s (step s) .memoryBounds (some 0x82) (some 256))

/-- ST: encoding, the cell written, frame, and its exceptions (decisions D7, D9 and, for the order of the two register
checks, D10). The store itself never aborts. -/
def Obligations.StStoresThroughRegister : Prop :=
  (∀ a b : Byte, encode (.st a b) = [0x84, a, b]) ∧
  (∀ (s : State) (a b : Reg), s.mem.wf = true → ∃ t, exec (.st (regByte a) (regByte b)) s = .next t ∧
    memRead t.mem (s.reg a).toNat = some (s.reg b) ∧ SameMemBut (s.reg a).toNat s t ∧ t.pc = s.pc + 3 ∧
    SameRegs s t ∧ SameFlags s t ∧ SameControl s t ∧ SameEvents s t) ∧
  (∀ (s : State) (a b : Byte),
    (8 ≤ a.toNat → Aborts s (exec (.st a b) s) .registerIndex (some 0x84) (some (s.pc + 1))) ∧
    (a.toNat ≤ 7 → 8 ≤ b.toNat → Aborts s (exec (.st a b) s) .registerIndex (some 0x84) (some (s.pc + 2)))) ∧
  (∀ s : State, s.status = .running → AtOpcode s 0x84 → 254 ≤ s.pc →
    Aborts s (step s) .memoryBounds (some 0x84) (some 256))

/-- PUSH: the register's byte goes to the undecremented stack pointer's cell, which may be register 7's own old value,
and the pointer goes down by one. A pointer of 0 aborts and writes nothing (decision D14). -/
def Obligations.PushStoresThenDecrements : Prop :=
  (∀ (s : State) (q : Reg), s.mem.wf = true → s.sp ≠ 0 → ∃ t, exec (.push (regByte q)) s = .next t ∧
    memRead t.mem s.sp.toNat = some (s.reg q) ∧ SameMemBut s.sp.toNat s t ∧
    (t.reg 7).toNat = s.sp.toNat - 1 ∧ SameRegsBut 7 s t ∧ t.pc = s.pc + 2 ∧
    SameFlags s t ∧ SameControl s t ∧ SameEvents s t) ∧
  (∀ (s : State) (q : Reg), s.sp = 0 → Aborts s (exec (.push (regByte q)) s) .stackPointerRange (some 0x45) none)

/-- POP: the pointer goes up by one, then the byte of its new cell goes to the register; into register 7 the byte wins
over the increment. A pointer of 255 aborts and writes nothing (decision D14). -/
def Obligations.PopIncrementsThenLoads : Prop :=
  (∀ (s : State) (q : Reg), s.sp ≠ 255 → ∃ t v, exec (.pop (regByte q)) s = .next t ∧
    memRead s.mem (s.sp.toNat + 1) = some v ∧ t.reg q = v ∧ (q ≠ 7 → (t.reg 7).toNat = s.sp.toNat + 1) ∧
    (∀ p : Reg, p ≠ q → p ≠ 7 → t.reg p = s.reg p) ∧ SameMem s t ∧ t.pc = s.pc + 2 ∧
    SameFlags s t ∧ SameControl s t ∧ SameEvents s t) ∧
  (∀ (s : State) (q : Reg), s.sp = 255 → Aborts s (exec (.pop (regByte q)) s) .stackPointerRange (some 0x46) none)

/-- PUSH then POP round-trips the value into any register and restores the stack pointer (95_test_vectors.md S3, S7);
from register 7 as well. -/
def Obligations.PushThenPopRoundTrips : Prop :=
  ∀ (s : State) (p q : Reg), s.mem.wf = true → s.sp ≠ 0 →
    ∃ t u, exec (.push (regByte p)) s = .next t ∧ exec (.pop (regByte q)) t = .next u ∧
      u.reg q = s.reg p ∧ (q ≠ 7 → u.reg 7 = s.reg 7) ∧ (∀ r : Reg, r ≠ q → r ≠ 7 → u.reg r = s.reg r)

/-- MUL: the exact product modulo 256 (decision D2); into register 7 a product over 255 aborts (decision D13). -/
def Obligations.MulMultipliesModulo256 : Prop :=
  (∀ (s : State) (a b : Reg), ¬ (a = 7 ∧ (s.reg a).toNat * (s.reg b).toNat > 255) →
    ∃ t, exec (.mul (regByte a) (regByte b)) s = .next t ∧
      (t.reg a).toNat = (s.reg a).toNat * (s.reg b).toNat % 256 ∧ t.pc = s.pc + 3 ∧
      SameRegsBut a s t ∧ SameMem s t ∧ SameFlags s t ∧ SameControl s t ∧ SameEvents s t) ∧
  (∀ (s : State) (b : Reg), (s.reg 7).toNat * (s.reg b).toNat > 255 →
    Aborts s (exec (.mul 7 (regByte b)) s) .stackPointerRange (some 0xA2) none)

/-- CMP: an unsigned comparison sets all three flags and makes them readable (decisions D4, D5). -/
def Obligations.CmpComparesUnsigned : Prop :=
  ∀ (s : State) (a b : Reg), ∃ t, exec (.cmp (regByte a) (regByte b)) s = .next t ∧
    (t.flags.equal = true ↔ (s.reg a).toNat = (s.reg b).toNat) ∧
    (t.flags.greater = true ↔ (s.reg a).toNat > (s.reg b).toNat) ∧
    (t.flags.less = true ↔ (s.reg a).toNat < (s.reg b).toNat) ∧ t.flv = true ∧ t.pc = s.pc + 3 ∧
    SameRegs s t ∧ SameMem s t ∧ SameControl s t ∧ SameEvents s t

/-- JMP: encoding, target, frame, and its two exceptions (decisions D7, D9). The flags are not read. -/
def Obligations.JmpJumpsToRegister : Prop :=
  (∀ r : Byte, encode (.jmp r) = [0x54, r]) ∧
  (∀ (s : State) (q : Reg), ∃ t, exec (.jmp (regByte q)) s = .next t ∧ t.pc = (s.reg q).toNat ∧
    SameRegs s t ∧ SameMem s t ∧ SameFlags s t ∧ SameControl s t ∧ SameEvents s t) ∧
  (∀ (s : State) (r : Byte), 8 ≤ r.toNat →
    Aborts s (exec (.jmp r) s) .registerIndex (some 0x54) (some (s.pc + 1))) ∧
  (∀ s : State, s.status = .running → AtOpcode s 0x54 → s.pc = 255 →
    Aborts s (step s) .memoryBounds (some 0x54) (some 256))

/-- JEQ: taken exactly when Equal is set; before any CMP it aborts (decision D4), in either case after the register
byte is checked (D11). -/
def Obligations.JeqJumpsWhenEqual : Prop :=
  (∀ (s : State) (q : Reg), s.flv = true → ∃ t, exec (.jeq (regByte q)) s = .next t ∧
    t.pc = (if s.flags.equal then (s.reg q).toNat else s.pc + 2) ∧
    SameRegs s t ∧ SameMem s t ∧ SameFlags s t ∧ SameControl s t ∧ SameEvents s t) ∧
  (∀ (s : State) (q : Reg), s.flv = false →
    Aborts s (exec (.jeq (regByte q)) s) .flagsUndefined (some 0x55) none)

/-- JNE: taken exactly when Equal is clear; before any CMP it aborts and is not taken (decision D4). -/
def Obligations.JneJumpsWhenNotEqual : Prop :=
  (∀ (s : State) (q : Reg), s.flv = true → ∃ t, exec (.jne (regByte q)) s = .next t ∧
    t.pc = (if s.flags.equal then s.pc + 2 else (s.reg q).toNat) ∧
    SameRegs s t ∧ SameMem s t ∧ SameFlags s t ∧ SameControl s t ∧ SameEvents s t) ∧
  (∀ (s : State) (q : Reg), s.flv = false →
    Aborts s (exec (.jne (regByte q)) s) .flagsUndefined (some 0x56) none)

/-- PRN: one `Out` event with the register's byte (decisions D19, D20). -/
def Obligations.PrnEmitsRegister : Prop :=
  ∀ (s : State) (q : Reg), ∃ t, exec (.prn (regByte q)) s = .next t ∧
    t.events = s.events ++ [.out (s.reg q)] ∧ t.out = s.out ++ [s.reg q] ∧ t.diag = s.diag ∧ t.pc = s.pc + 2 ∧
    SameRegs s t ∧ SameMem s t ∧ SameFlags s t ∧ SameControl s t

/-- HLT: `status <- Halted` and nothing else, `pc` included (decision D12). -/
def Obligations.HltHalts : Prop :=
  ∀ s : State, ∃ t, exec .hlt s = .next t ∧ t.status = .halted ∧ t.pc = s.pc ∧ t.fault = s.fault ∧
    SameRegs s t ∧ SameMem s t ∧ SameFlags s t ∧ SameEvents s t

/-- An unrecognised byte is reported with its address and skipped, one byte, and alters nothing else, its own cell
included (decision D16). -/
def Obligations.UnrecognisedByteIsSkipped : Prop :=
  ∀ (s : State) (b : Byte), ∃ t, exec (.unrecognised b) s = .next t ∧
    t.events = s.events ++ [.report s.pc b] ∧ t.pc = s.pc + 1 ∧
    SameRegs s t ∧ SameMem s t ∧ SameFlags s t ∧ SameControl s t

/-! ## Memory and the ALU -/

/-- R53: `MemRead` gives the byte of the cell inside 0..255 and raises `MemoryBounds` with the address outside; it
changes no state. -/
def Obligations.MemReadIsBoundsChecked : Prop :=
  ∀ (s : State) (ir : Byte) (a : Nat) (k : Byte → Result),
    (a ≤ 255 → memRead s.mem a = some (s.mem.peek a) ∧ s.loadByte ir a k = k (s.mem.peek a)) ∧
    (a > 255 → memRead s.mem a = none ∧ s.loadByte ir a k = .next (s.raise .memoryBounds (some ir) (some a)))

/-- R54: `MemWrite` changes exactly one cell inside 0..255 and raises `MemoryBounds` outside, writing nothing. -/
def Obligations.MemWriteChangesOneCell : Prop :=
  ∀ (s : State) (ir : Byte) (a : Nat) (v : Byte) (k : State → Result), s.mem.wf = true →
    (a ≤ 255 → ∃ t, s.storeByte ir a v k = k t ∧ memRead t.mem a = some v ∧ SameMemBut a s t ∧
      SameRegs s t ∧ t.pc = s.pc ∧ SameFlags s t ∧ SameControl s t ∧ SameEvents s t) ∧
    (a > 255 → memWrite s.mem a v = none ∧ s.storeByte ir a v k = .next (s.raise .memoryBounds (some ir) (some a)))

/-- As R126 has it, the ALU reads and writes the register file and the flags only; MUL and ADD write one register and
no flag, CMP all three flags, whatever they were, and `FLV`, and no register. ADD's effect is the spec's own (decision
D8; log entry 8). -/
def Obligations.AluFootprint : Prop :=
  (∀ (op : AluOp) (a b : Reg) (s s' : State), s'.regs = s.regs → s'.flags = s.flags → s'.flv = s.flv →
    alu op a b s' = (alu op a b s).map fun t => { s' with regs := t.regs, flags := t.flags, flv := t.flv }) ∧
  (∀ op ∈ [AluOp.mul, .add], ∀ (a b : Reg) (s t : State), alu op a b s = .ok t →
    SameRegsBut a s t ∧ SameFlags s t) ∧
  (∀ (a b : Reg) (s : State), ∃ t, alu .cmp a b s = .ok t ∧ SameRegs s t ∧ t.flv = true ∧
    ∀ (f : Flags) (v : Bool), ∃ u, alu .cmp a b { s with flags := f, flv := v } = .ok u ∧ u.flags = t.flags)

/-- The ALU's ADD, which no opcode reaches, and its error for an operation name outside the recognised set, which no
instruction passes. ADD's effect is the spec's own (decision D8), and so is the cause's name (D31). -/
def Obligations.AluAddAndUnsupported : Prop :=
  (∀ (a b : Reg) (s : State),
    if a = 7 ∧ (s.reg a).toNat + (s.reg b).toNat > 255 then alu .add a b s = .error .stackPointerRange
    else ∃ t, alu .add a b s = .ok t ∧ (t.reg a).toNat = ((s.reg a).toNat + (s.reg b).toNat) % 256) ∧
  (∀ (name : String) (a b : Reg) (s : State), alu (.other name) a b s = .error .aluUnsupportedOperation)

/-! ## The host's side -/

/-- The digits the host prints are digits of the base, at least one, with the value of the byte, in bases 16, 10 and 2,
without leading zeros, and the line has them in that order; the separator and the case of the letters are open, so it holds for each (decision D20). -/
def Obligations.PrintedDigitsAreTheByte : Prop :=
  (∀ (hc : Config.HexCase) (v : Byte), ∀ base ∈ [16, 10, 2],
    (∀ c ∈ digits hc base v, c ∈ (digitChars hc).take base) ∧ digits hc base v ≠ [] ∧
    digitsValue base (digits hc base v) = v.toNat ∧ ((digits hc base v).head? = some '0' → digits hc base v = ['0'])) ∧
  (∀ v : Byte, hostLine v = digits Config.prnHexCase 16 v ++ Config.prnSeparator ++ digits Config.prnHexCase 10 v ++
    Config.prnSeparator ++ digits Config.prnHexCase 2 v)

/-! ## The lines of an image, in characters -/

/-- What is left of a line: nothing exactly when all before its first `#` is white space, and of white space, a body,
white space and an optional comment the body. What white space is, is decision D24. -/
def Obligations.ContentOfALine : Prop :=
  (∀ before comment : List Char, '#' ∉ before → Comment comment →
    (content (before ++ comment) = [] ↔ AllBlank before)) ∧
  (∀ before body after comment : List Char, AllBlank before → AllBlank after → Comment comment → '#' ∉ body →
    (∀ c ∈ body.head?, ¬ Blank c) → (∀ c ∈ body.getLast?, ¬ Blank c) →
    content (before ++ body ++ after ++ comment) = body)

/-- The load errors of a text: after lines that give at most 255 bytes, a line that is neither skipped nor a literal
line is `LoadParse`; after lines that give 256, one more line that is not skipped is `LoadOverflow` (decisions D21, D22).
That the first line that fails decides, whatever stands after it, and that a 257th retained line is an overflow even
where it is malformed, is the model's choice (log entry 6). -/
def Obligations.LoadErrorsByCause : Prop :=
  ∀ (before : List (List Char)) (line : List Char) (after : List (List Char)) (cs : List Char) (bs : List Byte),
    TextOf (before ++ line :: after) cs → LinesGive before bs → ¬ SkippedLine line →
    (bs.length ≤ 255 → (∀ b, ¬ LiteralLine line b) → imageBytes (.text cs) = .error .parse) ∧
    (bs.length = 256 → imageBytes (.text cs) = .error .overflow)
end

