-- ==== Sys2Proof/Laws/Memory.lean ====
section
/-! SUPPORT. The laws of memory: the canonical form is kept, and a read after a write. -/

namespace Sys2Proof.Machine

theorem Memory.above_mono {a b : Nat} (h : a ≤ b) : ∀ {m : Memory}, m.above b = true → m.above a = true
  | [], _ => rfl
  | (c, w) :: m, hm => by
    simp only [Memory.above, Bool.and_eq_true, decide_eq_true_eq] at hm ⊢
    exact ⟨by omega, Memory.above_mono h hm.2⟩

/-- Below the first listed address everything reads as an unlisted cell. -/
theorem Memory.peek_of_above {a : Nat} : ∀ {m : Memory}, m.above a = true → ∀ {b}, b ≤ a →
    m.peek b = Config.unlistedByte
  | [], _, _, _ => rfl
  | (c, w) :: m, hm, b, hb => by
    simp only [Memory.above, Bool.and_eq_true, decide_eq_true_eq] at hm
    have : b ≠ c := by omega
    simp [Memory.peek, this, Memory.peek_of_above hm.2 hb]

theorem Memory.poke_above {a b : Nat} {v : Byte} (hab : a < b) :
    ∀ {m : Memory}, m.above a = true → (m.poke b v).above a = true
  | [], _ => by
    simp only [Memory.poke]
    split <;> simp [Memory.above, hab]
  | (c, w) :: m, hm => by
    simp only [Memory.above, Bool.and_eq_true, decide_eq_true_eq] at hm
    simp only [Memory.poke]
    split
    · split <;> simp [Memory.above, hm, hab]
    · split
      · split <;> simp [Memory.above, hm, hab]
      · simp [Memory.above, hm.1, Memory.poke_above hab hm.2]

/-- A write inside the 256 cells keeps the canonical form. -/
theorem Memory.poke_wf {a : Nat} {v : Byte} (ha : a < Config.memSize) :
    ∀ {m : Memory}, m.wf = true → (m.poke a v).wf = true
  | [], _ => by
    simp only [Memory.poke]
    split <;> simp_all [Memory.wf, Memory.above]
  | (c, w) :: m, hm => by
    simp only [Memory.wf, Bool.and_eq_true, decide_eq_true_eq] at hm
    obtain ⟨⟨⟨hc, hw⟩, hcm⟩, hm'⟩ := hm
    simp only [Memory.poke]
    split
    · rename_i hac
      split
      · simp [Memory.wf, *]
      · have := Memory.above_mono (Nat.le_of_lt hac) hcm
        simp [Memory.wf, Memory.above, *]
    · split
      · split
        · exact hm'
        · subst a
          simp [Memory.wf, *]
      · have hca : c < a := by omega
        simp [Memory.wf, hc, hw, Memory.poke_above hca hcm, Memory.poke_wf ha hm']

/-- Every memory operation keeps the canonical form: a write that is not refused does. -/
theorem memWrite_wf {m m' : Memory} {a : Nat} {v : Byte} (h : memWrite m a v = some m') (hm : m.wf = true) :
    m'.wf = true := by
  simp only [memWrite] at h
  split at h
  · cases h
    exact Memory.poke_wf ‹_› hm
  · cases h

/-- A sequence of writes keeps the canonical form. -/
theorem placeBytes_wf : ∀ (bs : List Byte) {m : Memory} (a : Nat), m.wf = true → (placeBytes m a bs).wf = true
  | [], _, _, hm => hm
  | b :: bs, m, a, hm => by
    apply placeBytes_wf bs
    cases h : memWrite m a b with
    | none => exact hm
    | some m' => exact memWrite_wf h hm

/-- What a cell holds after a write of one cell. -/
theorem Memory.peek_poke {a b : Nat} {v : Byte} :
    ∀ {m : Memory}, m.wf = true → (m.poke a v).peek b = if b = a then v else m.peek b
  | [], _ => by
    simp only [Memory.poke]
    split
    · simp_all [Memory.peek]
    · simp [Memory.peek]
  | (c, w) :: m, hm => by
    simp only [Memory.wf, Bool.and_eq_true, decide_eq_true_eq] at hm
    obtain ⟨⟨⟨hc, hw⟩, hcm⟩, hm'⟩ := hm
    simp only [Memory.poke]
    split
    · rename_i hac
      split
      · split
        · subst b
          have : a ≠ c := by omega
          simp_all [Memory.peek, Memory.peek_of_above hcm (Nat.le_of_lt hac)]
        · rfl
      · simp [Memory.peek]
    · split
      · subst a
        split
        · split
          · subst b
            simp_all [Memory.peek_of_above hcm (Nat.le_refl c)]
          · simp [Memory.peek, *]
        · simp only [Memory.peek]
          split <;> simp_all
      · simp only [Memory.peek, Memory.peek_poke hm']
        split
        · split
          · omega
          · rfl
        · rfl

/-- Two memories in canonical form that read alike at every address are equal. -/
theorem Memory.ext_of_peek : ∀ {m n : Memory}, m.wf = true → n.wf = true → (∀ a, m.peek a = n.peek a) → m = n
  | [], [], _, _, _ => rfl
  | [], (b, w) :: n, _, hn, h => by
    simp only [Memory.wf, Bool.and_eq_true, decide_eq_true_eq] at hn
    have := h b
    simp [Memory.peek] at this
    exact absurd this.symm hn.1.1.2
  | (a, v) :: m, [], hm, _, h => by
    simp only [Memory.wf, Bool.and_eq_true, decide_eq_true_eq] at hm
    have := h a
    simp [Memory.peek] at this
    exact absurd this hm.1.1.2
  | (a, v) :: m, (b, w) :: n, hm, hn, h => by
    simp only [Memory.wf, Bool.and_eq_true, decide_eq_true_eq] at hm hn
    obtain ⟨⟨⟨_, hv⟩, ham⟩, hm'⟩ := hm
    obtain ⟨⟨⟨_, hw⟩, hbn⟩, hn'⟩ := hn
    have hab : a = b := by
      rcases Nat.lt_trichotomy a b with hlt | heq | hgt
      · have := h a
        have hne : a ≠ b := by omega
        simp [Memory.peek, hne, Memory.peek_of_above hbn (Nat.le_of_lt hlt)] at this
        exact absurd this hv
      · exact heq
      · have := h b
        have hne : b ≠ a := by omega
        simp [Memory.peek, hne, Memory.peek_of_above ham (Nat.le_of_lt hgt)] at this
        exact absurd this.symm hw
    subst hab
    have hvw : v = w := by simpa [Memory.peek] using h a
    subst hvw
    have : m = n := by
      apply Memory.ext_of_peek hm' hn'
      intro c
      by_cases hc : c = a
      · subst hc
        rw [Memory.peek_of_above ham (Nat.le_refl c), Memory.peek_of_above hbn (Nat.le_refl c)]
      · simpa [Memory.peek, hc] using h c
    rw [this]

/-- `MemRead` inside the 256 cells. -/
theorem memRead_of_lt {m : Memory} {a : Nat} (h : a < 256) : memRead m a = some (m.peek a) := by
  simp [memRead, Config.memSize, h]

/-- `MemRead` outside them. -/
theorem memRead_of_le {m : Memory} {a : Nat} (h : 256 ≤ a) : memRead m a = none := by
  simp [memRead, Config.memSize, Nat.not_lt.mpr h]

/-- `MemWrite` inside the 256 cells. -/
theorem memWrite_of_lt {m : Memory} {a : Nat} {v : Byte} (h : a < 256) : memWrite m a v = some (m.poke a v) := by
  simp [memWrite, Config.memSize, h]

end Sys2Proof.Machine
end

