-- ==== Sys2Proof/Laws/State.lean ====
section
/-! SUPPORT. What each named update of the state leaves in each field, and the laws of the register file. -/

namespace Sys2Proof.Machine

variable (s : State)

/-! ### setReg -/

@[simp] theorem State.setReg_pc (q : Reg) (v : Byte) : (s.setReg q v).pc = s.pc := rfl
@[simp] theorem State.setReg_flags (q : Reg) (v : Byte) : (s.setReg q v).flags = s.flags := rfl
@[simp] theorem State.setReg_flv (q : Reg) (v : Byte) : (s.setReg q v).flv = s.flv := rfl
@[simp] theorem State.setReg_mem (q : Reg) (v : Byte) : (s.setReg q v).mem = s.mem := rfl
@[simp] theorem State.setReg_status (q : Reg) (v : Byte) : (s.setReg q v).status = s.status := rfl
@[simp] theorem State.setReg_fault (q : Reg) (v : Byte) : (s.setReg q v).fault = s.fault := rfl
@[simp] theorem State.setReg_events (q : Reg) (v : Byte) : (s.setReg q v).events = s.events := rfl

/-- A register read returns the last value written to that index (R25). -/
theorem State.reg_setReg (q p : Reg) (v : Byte) : (s.setReg q v).reg p = if p = q then v else s.reg p := by
  simp [State.reg, State.setReg, Vector.getElem_set, Fin.ext_iff, eq_comm]

@[simp] theorem State.reg_setReg_self (q : Reg) (v : Byte) : (s.setReg q v).reg q = v := by
  simp [State.reg_setReg]

theorem State.reg_setReg_ne {q p : Reg} (h : p ≠ q) (v : Byte) : (s.setReg q v).reg p = s.reg p := by
  simp [State.reg_setReg, h]

/-! ### setPc and advance -/

@[simp] theorem State.setPc_pc (t : Nat) : (s.setPc t).pc = t := rfl
@[simp] theorem State.setPc_reg (t : Nat) (q : Reg) : (s.setPc t).reg q = s.reg q := rfl
@[simp] theorem State.setPc_flags (t : Nat) : (s.setPc t).flags = s.flags := rfl
@[simp] theorem State.setPc_flv (t : Nat) : (s.setPc t).flv = s.flv := rfl
@[simp] theorem State.setPc_mem (t : Nat) : (s.setPc t).mem = s.mem := rfl
@[simp] theorem State.setPc_status (t : Nat) : (s.setPc t).status = s.status := rfl
@[simp] theorem State.setPc_fault (t : Nat) : (s.setPc t).fault = s.fault := rfl
@[simp] theorem State.setPc_events (t : Nat) : (s.setPc t).events = s.events := rfl

@[simp] theorem State.advance_pc (n : Nat) : (s.advance n).pc = s.pc + n := rfl
@[simp] theorem State.advance_reg (n : Nat) (q : Reg) : (s.advance n).reg q = s.reg q := rfl
@[simp] theorem State.advance_flags (n : Nat) : (s.advance n).flags = s.flags := rfl
@[simp] theorem State.advance_flv (n : Nat) : (s.advance n).flv = s.flv := rfl
@[simp] theorem State.advance_mem (n : Nat) : (s.advance n).mem = s.mem := rfl
@[simp] theorem State.advance_status (n : Nat) : (s.advance n).status = s.status := rfl
@[simp] theorem State.advance_fault (n : Nat) : (s.advance n).fault = s.fault := rfl
@[simp] theorem State.advance_events (n : Nat) : (s.advance n).events = s.events := rfl

/-! ### setMem -/

@[simp] theorem State.setMem_mem (m : Memory) : (s.setMem m).mem = m := rfl
@[simp] theorem State.setMem_reg (m : Memory) (q : Reg) : (s.setMem m).reg q = s.reg q := rfl
@[simp] theorem State.setMem_pc (m : Memory) : (s.setMem m).pc = s.pc := rfl
@[simp] theorem State.setMem_flags (m : Memory) : (s.setMem m).flags = s.flags := rfl
@[simp] theorem State.setMem_flv (m : Memory) : (s.setMem m).flv = s.flv := rfl
@[simp] theorem State.setMem_status (m : Memory) : (s.setMem m).status = s.status := rfl
@[simp] theorem State.setMem_fault (m : Memory) : (s.setMem m).fault = s.fault := rfl
@[simp] theorem State.setMem_events (m : Memory) : (s.setMem m).events = s.events := rfl

/-! ### setFlags -/

@[simp] theorem State.setFlags_flags (f : Flags) : (s.setFlags f).flags = f := rfl
@[simp] theorem State.setFlags_flv (f : Flags) : (s.setFlags f).flv = true := rfl
@[simp] theorem State.setFlags_reg (f : Flags) (q : Reg) : (s.setFlags f).reg q = s.reg q := rfl
@[simp] theorem State.setFlags_pc (f : Flags) : (s.setFlags f).pc = s.pc := rfl
@[simp] theorem State.setFlags_mem (f : Flags) : (s.setFlags f).mem = s.mem := rfl
@[simp] theorem State.setFlags_status (f : Flags) : (s.setFlags f).status = s.status := rfl
@[simp] theorem State.setFlags_fault (f : Flags) : (s.setFlags f).fault = s.fault := rfl
@[simp] theorem State.setFlags_events (f : Flags) : (s.setFlags f).events = s.events := rfl

/-! ### emit -/

@[simp] theorem State.emit_events (e : Event) : (s.emit e).events = s.events ++ [e] := rfl
@[simp] theorem State.emit_reg (e : Event) (q : Reg) : (s.emit e).reg q = s.reg q := rfl
@[simp] theorem State.emit_pc (e : Event) : (s.emit e).pc = s.pc := rfl
@[simp] theorem State.emit_flags (e : Event) : (s.emit e).flags = s.flags := rfl
@[simp] theorem State.emit_flv (e : Event) : (s.emit e).flv = s.flv := rfl
@[simp] theorem State.emit_mem (e : Event) : (s.emit e).mem = s.mem := rfl
@[simp] theorem State.emit_status (e : Event) : (s.emit e).status = s.status := rfl
@[simp] theorem State.emit_fault (e : Event) : (s.emit e).fault = s.fault := rfl

/-! ### raise: everything the fatal mechanism does (R151) -/

section raise
variable (c : Cause) (ir : Option Byte) (addr : Option Nat)

@[simp] theorem State.raise_status : (s.raise c ir addr).status = .aborted := rfl
@[simp] theorem State.raise_fault : (s.raise c ir addr).fault = some ⟨c, s.pc, ir, addr⟩ := rfl
@[simp] theorem State.raise_events : (s.raise c ir addr).events = s.events ++ [.fatal ⟨c, s.pc, ir, addr⟩] := rfl
@[simp] theorem State.raise_reg (q : Reg) : (s.raise c ir addr).reg q = s.reg q := rfl
@[simp] theorem State.raise_pc : (s.raise c ir addr).pc = s.pc := rfl
@[simp] theorem State.raise_flags : (s.raise c ir addr).flags = s.flags := rfl
@[simp] theorem State.raise_flv : (s.raise c ir addr).flv = s.flv := rfl
@[simp] theorem State.raise_mem : (s.raise c ir addr).mem = s.mem := rfl

end raise

/-! ### the register file as data -/

@[simp] theorem State.advance_regs (n : Nat) : (s.advance n).regs = s.regs := rfl
@[simp] theorem State.setPc_regs (t : Nat) : (s.setPc t).regs = s.regs := rfl
@[simp] theorem State.setMem_regs (m : Memory) : (s.setMem m).regs = s.regs := rfl
@[simp] theorem State.setFlags_regs (f : Flags) : (s.setFlags f).regs = s.regs := rfl
@[simp] theorem State.emit_regs (e : Event) : (s.emit e).regs = s.regs := rfl
@[simp] theorem State.raise_regs (c : Cause) (ir : Option Byte) (addr : Option Nat) :
    (s.raise c ir addr).regs = s.regs := rfl

/-- Two register files that read alike at every index are equal. -/
theorem State.regs_ext {s t : State} (h : ∀ q, s.reg q = t.reg q) : s.regs = t.regs := by
  apply Vector.ext
  intro i hi
  exact h ⟨i, hi⟩

end Sys2Proof.Machine
end

