-- ==== Sys2Proof/Laws/Access.lean ====
section
/-! SUPPORT. What a data access, the reading of the Equal flag and the ALU can do: one lemma for each. -/

namespace Sys2Proof.Machine

variable (s : State) (ir : Byte)

/-- A data read inside memory goes on with the byte (R53). -/
theorem State.loadByte_of_lt {a : Nat} (h : a < 256) (k : Byte → Result) :
    s.loadByte ir a k = k (s.mem.peek a) := by
  simp [State.loadByte, memRead_of_lt h]

/-- A data write inside memory goes on with the cell written (R54). -/
theorem State.storeByte_of_lt {a : Nat} (h : a < 256) (v : Byte) (k : State → Result) :
    s.storeByte ir a v k = k (s.setMem (s.mem.poke a v)) := by
  simp [State.storeByte, memWrite_of_lt h]

/-- An address held in a register is a byte, so a store through it never leaves memory (R51, R111). -/
theorem State.storeByte_toNat (a v : Byte) (k : State → Result) :
    s.storeByte ir a.toNat v k = k (s.setMem (s.mem.poke a.toNat v)) :=
  s.storeByte_of_lt ir a.isLt v k

/-- Everything the reading of the Equal flag can do (R31, R154). -/
theorem State.withEqualFlag_cases (k : Bool → Result) :
    (s.flv = true ∧ s.withEqualFlag ir k = k s.flags.equal) ∨
    (s.flv = false ∧ s.withEqualFlag ir k = .next (s.raise .flagsUndefined (some ir) none)) := by
  unfold State.withEqualFlag
  cases h : s.flv with
  | false => exact .inr ⟨rfl, by simp⟩
  | true => exact .inl ⟨rfl, by simp⟩

/-- Exactly one flag is true after any comparison (R122). -/
theorem compareFlags_exactlyOne (a b : Byte) : (compareFlags a b).exactlyOne = true := by
  rcases Nat.lt_trichotomy a.toNat b.toNat with h | h | h
  · have h1 : a.toNat ≠ b.toNat := by omega
    have h2 : ¬ b.toNat < a.toNat := by omega
    simp [compareFlags, h, h1, h2, Flags.exactlyOne]
  · simp [compareFlags, h, Flags.exactlyOne]
  · have h1 : a.toNat ≠ b.toNat := by omega
    have h2 : ¬ a.toNat < b.toNat := by omega
    simp [compareFlags, h, h1, h2, Flags.exactlyOne]

/-- Everything the ALU's write of a result can do (R121, R153). -/
theorem State.aluWrite_cases (a : Reg) (n : Nat) :
    ((a = 7 ∧ 255 < n) ∧ s.aluWrite a n = .error .stackPointerRange) ∨
    (¬ (a = 7 ∧ 255 < n) ∧ s.aluWrite a n = .ok (s.setReg a (BitVec.ofNat 8 (n % 256)))) := by
  unfold State.aluWrite
  by_cases h : a = 7 ∧ 255 < n
  · exact .inl ⟨h, by simp [Config.spIndex, h]⟩
  · refine .inr ⟨h, ?_⟩
    have : ¬ (a = Config.spIndex ∧ n > 255) := h
    simp only [if_neg this]

/-- Everything an ALU instruction can do: it aborts with the ALU's cause, or advances over the ALU's result (R120). -/
theorem State.aluInstr_cases (op : AluOp) (a b : Reg) :
    (∃ c, alu op a b s = .error c ∧ s.aluInstr ir op a b = .next (s.raise c (some ir) none)) ∨
    (∃ t, alu op a b s = .ok t ∧ s.aluInstr ir op a b = .next (t.advance 3)) := by
  unfold State.aluInstr
  cases h : alu op a b s with
  | error c => exact .inl ⟨c, rfl, rfl⟩
  | ok t => exact .inr ⟨t, rfl, rfl⟩

end Sys2Proof.Machine
end

