-- ==== Sys2Proof/Laws/Decode.lean ====
section
/-! SUPPORT. The opcode map: no two rows overlap, and its rows as equations. -/

namespace Sys2Proof

/-- No two rows of the opcode map have the same opcode byte. -/
theorem opcodeTable_unambiguous : (opcodeTable.map Prod.fst).Pairwise (fun a b => a ≠ b) := by decide

/-- The opcode bytes of the map are those of R72, in the source's order. -/
theorem opcodeTable_opcodes : opcodeTable.map Prod.fst = opcodeBytes := rfl

/-- The opcode map as a chain of comparisons. -/
theorem decodeOpcode_eq (ir : Byte) :
    decodeOpcode ir =
      if ir = 0x82 then .ri .ldi else if ir = 0x47 then .r .prn else if ir = 0xA2 then .rr .mul
      else if ir = 0xA7 then .rr .cmp else if ir = 0x45 then .r .push else if ir = 0x46 then .r .pop
      else if ir = 0x84 then .rr .st else if ir = 0x54 then .r .jmp else if ir = 0x55 then .r .jeq
      else if ir = 0x56 then .r .jne else if ir = 0x01 then .z .hlt else .z (.unrecognised ir) := rfl

/-- A byte outside the map takes the default arm (R73, R77). -/
theorem decodeOpcode_unrecognised {ir : Byte} (h : opcodeBytes.contains ir = false) :
    decodeOpcode ir = .z (.unrecognised ir) := by
  simp only [opcodeBytes, List.contains_cons, List.contains_nil, Bool.or_false, Bool.or_eq_false_iff,
    beq_eq_false_iff_ne, ne_eq] at h
  obtain ⟨h1, h2, h3, h4, h5, h6, h7, h8, h9, h10, h11⟩ := h
  rw [decodeOpcode_eq, if_neg h1, if_neg h2, if_neg h3, if_neg h4, if_neg h5, if_neg h6, if_neg h7, if_neg h8,
    if_neg h9, if_neg h10, if_neg h11]

/-- Every instruction a format builds has the opcode byte `ir`. -/
def Form.builds (ir : Byte) : Form → Prop
  | .z i => i.opcode = ir
  | .r mk => ∀ o1, (mk o1).opcode = ir
  | .rr mk => ∀ o1 o2, (mk o1 o2).opcode = ir
  | .ri mk => ∀ o1 o2, (mk o1 o2).opcode = ir

/-- Every row of the opcode map builds instructions of its own opcode byte. -/
theorem opcodeTable_builds : ∀ row ∈ opcodeTable, row.2.builds row.1 := by
  simp [opcodeTable, Form.builds, Instr.opcode]

theorem lookupForm_builds (ir : Byte) :
    ∀ rows : List (Byte × Form), (∀ row ∈ rows, row.2.builds row.1) → (lookupForm ir rows).builds ir
  | [], _ => rfl
  | (op, f) :: rows, h => by
    simp only [lookupForm]
    split
    · rename_i heq
      subst heq
      exact h (ir, f) (by simp)
    · exact lookupForm_builds ir rows fun row hrow => h row (by simp [hrow])

theorem decodeOpcode_builds (ir : Byte) : (decodeOpcode ir).builds ir :=
  lookupForm_builds ir opcodeTable opcodeTable_builds

/-- The opcode byte of an instruction that was read is the byte that was read at its address (R92, R93). -/
theorem decodeAt_opcode {read : Nat → Option Byte} {a : Nat} {i : Instr} (h : decodeAt read a = .ok i) :
    read a = some i.opcode := by
  unfold decodeAt at h
  split at h
  · cases h
  · rename_i ir hir
    have hb := decodeOpcode_builds ir
    rw [hir]
    congr 1
    split at h <;> rename_i hf <;> rw [hf] at hb <;> repeat' split at h
    all_goals cases h
    exacts [hb.symm, (hb _).symm, (hb _ _).symm, (hb _ _).symm]

end Sys2Proof
end

