-- ==== Sys2Proof/Laws/Operands.lean ====
section
/-! SUPPORT. What the register-index check can do (R74, R95). -/

namespace Sys2Proof.Machine

/-- A byte of 0 to 7 selects the register of that index (R74). -/
theorem regOf_of_lt {o : Byte} (h : o.toNat < 8) : regOf o = some ⟨o.toNat, h⟩ := by simp [regOf, h]

/-- A byte of 8 to 255 selects none (R74). -/
theorem regOf_of_le {o : Byte} (h : 8 ≤ o.toNat) : regOf o = none := by simp [regOf, Nat.not_lt.mpr h]

theorem regOf_eq_none_iff {o : Byte} : regOf o = none ↔ 8 ≤ o.toNat := by
  simp [regOf]

theorem regOf_eq_some_iff {o : Byte} {q : Reg} : regOf o = some q ↔ o.toNat = q.val := by
  unfold regOf
  split
  · simp [Fin.ext_iff]
  · have := q.isLt
    simp only [reduceCtorEq, false_iff]
    omega

/-- The byte of a register selects it. -/
@[simp] theorem regOf_regByte (q : Reg) : regOf (regByte q) = some q := by
  have := q.isLt
  rw [regOf_eq_some_iff]
  simp only [regByte, BitVec.toNat_ofNat]
  omega

section
variable (s : State) (ir : Byte) (addr : Nat) (k : Reg → Result)

/-- The check of a register's byte goes on with that register (R95). -/
@[simp] theorem State.withReg_regByte (q : Reg) : s.withReg ir (regByte q) addr k = k q := by
  simp [State.withReg]

/-- The check of any other byte raises `RegisterIndex` (R95). -/
theorem State.withReg_illegal {o : Byte} (h : 8 ≤ o.toNat) :
    s.withReg ir o addr k = .next (s.raise .registerIndex (some ir) (some addr)) := by
  simp [State.withReg, regOf_of_le h]

/-- Everything the check of one register byte can do. -/
theorem State.withReg_cases (o : Byte) :
    (∃ q, regOf o = some q ∧ s.withReg ir o addr k = k q) ∨
    (regOf o = none ∧ s.withReg ir o addr k = .next (s.raise .registerIndex (some ir) (some addr))) := by
  unfold State.withReg
  cases h : regOf o with
  | none => exact .inr ⟨rfl, rfl⟩
  | some q => exact .inl ⟨q, rfl, rfl⟩

end

section
variable (s : State) (ir : Byte) (k : Reg → Reg → Result)

@[simp] theorem State.withRegs_regByte (a b : Reg) : s.withRegs ir (regByte a) (regByte b) k = k a b := by
  simp [State.withRegs]

/-- Everything the check of two register bytes can do: the first is checked first (R95). -/
theorem State.withRegs_cases (o1 o2 : Byte) :
    (∃ a b, regOf o1 = some a ∧ regOf o2 = some b ∧ s.withRegs ir o1 o2 k = k a b) ∨
    (regOf o1 = none ∧ s.withRegs ir o1 o2 k = .next (s.raise .registerIndex (some ir) (some (s.pc + 1)))) ∨
    (∃ a, regOf o1 = some a ∧ regOf o2 = none ∧
      s.withRegs ir o1 o2 k = .next (s.raise .registerIndex (some ir) (some (s.pc + 2)))) := by
  simp only [State.withRegs]
  obtain ⟨a, ha, e⟩ | ⟨ha, e⟩ := s.withReg_cases ir (s.pc + 1) (fun a => s.withReg ir o2 (s.pc + 2) fun b => k a b) o1
  · rw [e]
    obtain ⟨b, hb, e'⟩ | ⟨hb, e'⟩ := s.withReg_cases ir (s.pc + 2) (fun b => k a b) o2
    · exact .inl ⟨a, b, ha, hb, e'⟩
    · exact .inr (.inr ⟨a, ha, hb, e'⟩)
  · exact .inr (.inl ⟨ha, e⟩)

end

end Sys2Proof.Machine
end

