-- ==== Sys2Proof/Laws/Exec.lean ====
section
/-! SUPPORT. What an instruction and a step can do, said once: an instruction completes with its own effect or raises
one of its own causes. Every fact about all instructions or all steps is a case analysis of these. -/

namespace Sys2Proof.Machine

theorem regOf_eq_none_legal {o : Byte} (h : regOf o = none) : legalReg o = false := by
  rw [regOf_eq_none_iff] at h
  simp only [legalReg, decide_eq_false_iff_not]
  omega

theorem regOf_eq_some_legal {o : Byte} {q : Reg} (h : regOf o = some q) : legalReg o = true ∧ o = regByte q := by
  have hq := q.isLt
  rw [regOf_eq_some_iff] at h
  refine ⟨by simp [legalReg]; omega, BitVec.eq_of_toNat_eq ?_⟩
  simp only [regByte, BitVec.toNat_ofNat]
  omega

/-- The instruction completes from `s` with its own effect, in `t`. -/
def Completes : Instr → State → State → Prop
  | .ldi r v, s, t => ∃ q, regOf r = some q ∧ t = (s.setReg q v).advance 3
  | .prn r, s, t => ∃ q, regOf r = some q ∧ t = (s.emit (.out (s.reg q))).advance 2
  | .mul a b, s, t => ∃ qa qb, regOf a = some qa ∧ regOf b = some qb ∧
      ¬ (qa = 7 ∧ 255 < (s.reg qa).toNat * (s.reg qb).toNat) ∧
      t = (s.setReg qa (BitVec.ofNat 8 ((s.reg qa).toNat * (s.reg qb).toNat % 256))).advance 3
  | .cmp a b, s, t => ∃ qa qb, regOf a = some qa ∧ regOf b = some qb ∧
      t = (s.setFlags (compareFlags (s.reg qa) (s.reg qb))).advance 3
  | .push r, s, t => ∃ q, regOf r = some q ∧ s.sp ≠ 0 ∧
      t = ((s.setMem (s.mem.poke s.sp.toNat (s.reg q))).setReg 7 (s.sp - 1)).advance 2
  | .pop r, s, t => ∃ q, regOf r = some q ∧ s.sp ≠ 255 ∧
      t = ((s.setReg 7 (s.sp + 1)).setReg q (s.mem.peek (s.sp.toNat + 1))).advance 2
  | .st a b, s, t => ∃ qa qb, regOf a = some qa ∧ regOf b = some qb ∧
      t = (s.setMem (s.mem.poke (s.reg qa).toNat (s.reg qb))).advance 3
  | .jmp r, s, t => ∃ q, regOf r = some q ∧ t = s.jumpTo q
  | .jeq r, s, t => ∃ q, regOf r = some q ∧ s.flv = true ∧ t = if s.flags.equal then s.jumpTo q else s.advance 2
  | .jne r, s, t => ∃ q, regOf r = some q ∧ s.flv = true ∧ t = if s.flags.equal then s.advance 2 else s.jumpTo q
  | .hlt, s, t => t = { s with status := .halted }
  | .unrecognised b, s, t => t = (s.emit (.report s.pc b)).advance 1

/-- The instruction's own check fails, its register bytes being legal, with this cause. -/
def ChecksFail : Instr → State → Cause → Prop
  | .mul a b, s, c => ∃ qa qb, regOf a = some qa ∧ regOf b = some qb ∧ qa = 7 ∧
      255 < (s.reg qa).toNat * (s.reg qb).toNat ∧ c = .stackPointerRange
  | .push r, s, c => ∃ q, regOf r = some q ∧ s.sp = 0 ∧ c = .stackPointerRange
  | .pop r, s, c => ∃ q, regOf r = some q ∧ s.sp = 255 ∧ c = .stackPointerRange
  | .jeq r, s, c => ∃ q, regOf r = some q ∧ s.flv = false ∧ c = .flagsUndefined
  | .jne r, s, c => ∃ q, regOf r = some q ∧ s.flv = false ∧ c = .flagsUndefined
  | .ldi _ _, _, _ => False
  | .prn _, _, _ => False
  | .cmp _ _, _, _ => False
  | .st _ _, _, _ => False
  | .jmp _, _, _ => False
  | .hlt, _, _ => False
  | .unrecognised _, _, _ => False

/-- Which operand byte is the first illegal one, counted from the opcode byte (R95: the first operand is checked
first). -/
def firstIllegal : Instr → Nat
  | .mul a _ => if legalReg a then 2 else 1
  | .cmp a _ => if legalReg a then 2 else 1
  | .st a _ => if legalReg a then 2 else 1
  | .ldi _ _ => 1
  | .prn _ => 1
  | .push _ => 1
  | .pop _ => 1
  | .jmp _ => 1
  | .jeq _ => 1
  | .jne _ => 1
  | .hlt => 1
  | .unrecognised _ => 1

/-- Everything an instruction can do: complete, fail its own check, or be stopped by a register byte (R95, R96). -/
theorem exec_cases (i : Instr) (s : State) :
    (∃ t, exec i s = .next t ∧ Completes i s t) ∨
    (∃ c, exec i s = .next (s.raise c (some i.opcode) none) ∧ ChecksFail i s c) ∨
    (exec i s = .next (s.raise .registerIndex (some i.opcode) (some (s.pc + firstIllegal i))) ∧
      i.regsLegal = false) := by
  cases i with
  | ldi r v =>
    obtain ⟨q, hq, e⟩ | ⟨hr, e⟩ := s.withReg_cases (Instr.ldi r v).opcode (s.pc + 1)
      (fun q => .next ((s.setReg q v).advance 3)) r
    · exact .inl ⟨_, e, q, hq, rfl⟩
    · exact .inr (.inr ⟨e, by simp [Instr.regsLegal, regOf_eq_none_legal hr]⟩)
  | prn r =>
    obtain ⟨q, hq, e⟩ | ⟨hr, e⟩ := s.withReg_cases (Instr.prn r).opcode (s.pc + 1)
      (fun q => .next ((s.emit (.out (s.reg q))).advance 2)) r
    · exact .inl ⟨_, e, q, hq, rfl⟩
    · exact .inr (.inr ⟨e, by simp [Instr.regsLegal, regOf_eq_none_legal hr]⟩)
  | jmp r =>
    obtain ⟨q, hq, e⟩ | ⟨hr, e⟩ := s.withReg_cases (Instr.jmp r).opcode (s.pc + 1) (fun q => .next (s.jumpTo q)) r
    · exact .inl ⟨_, e, q, hq, rfl⟩
    · exact .inr (.inr ⟨e, by simp [Instr.regsLegal, regOf_eq_none_legal hr]⟩)
  | mul a b =>
    obtain ⟨qa, qb, ha, hb, e⟩ | ⟨ha, e⟩ | ⟨qa, ha, hb, e⟩ := s.withRegs_cases (Instr.mul a b).opcode
      (fun ra rb => s.aluInstr (Instr.mul a b).opcode .mul ra rb) a b
    · obtain ⟨c, hc, e'⟩ | ⟨t, ht, e'⟩ := s.aluInstr_cases (Instr.mul a b).opcode .mul qa qb
      · obtain ⟨h, e''⟩ | ⟨h, e''⟩ := s.aluWrite_cases qa ((s.reg qa).toNat * (s.reg qb).toNat)
        · cases e''.symm.trans hc
          exact .inr (.inl ⟨_, e.trans e', qa, qb, ha, hb, h.1, h.2, rfl⟩)
        · cases e''.symm.trans hc
      · obtain ⟨h, e''⟩ | ⟨h, e''⟩ := s.aluWrite_cases qa ((s.reg qa).toNat * (s.reg qb).toNat)
        · cases e''.symm.trans ht
        · cases e''.symm.trans ht
          exact .inl ⟨_, e.trans e', qa, qb, ha, hb, h, rfl⟩
    · have hi := regOf_eq_none_legal ha
      refine .inr (.inr ⟨?_, by simp [Instr.regsLegal, hi]⟩)
      simp only [firstIllegal, hi, Bool.false_eq_true, if_false]
      exact e
    · have hi := regOf_eq_none_legal hb
      have hl := (regOf_eq_some_legal ha).1
      refine .inr (.inr ⟨?_, by simp [Instr.regsLegal, hi]⟩)
      simp only [firstIllegal, hl, if_true]
      exact e
  | cmp a b =>
    obtain ⟨qa, qb, ha, hb, e⟩ | ⟨ha, e⟩ | ⟨qa, ha, hb, e⟩ := s.withRegs_cases (Instr.cmp a b).opcode
      (fun ra rb => s.aluInstr (Instr.cmp a b).opcode .cmp ra rb) a b
    · exact .inl ⟨_, e, qa, qb, ha, hb, rfl⟩
    · have hi := regOf_eq_none_legal ha
      refine .inr (.inr ⟨?_, by simp [Instr.regsLegal, hi]⟩)
      simp only [firstIllegal, hi, Bool.false_eq_true, if_false]
      exact e
    · have hi := regOf_eq_none_legal hb
      have hl := (regOf_eq_some_legal ha).1
      refine .inr (.inr ⟨?_, by simp [Instr.regsLegal, hi]⟩)
      simp only [firstIllegal, hl, if_true]
      exact e
  | st a b =>
    obtain ⟨qa, qb, ha, hb, e⟩ | ⟨ha, e⟩ | ⟨qa, ha, hb, e⟩ := s.withRegs_cases (Instr.st a b).opcode
      (fun ra rb => s.storeByte (Instr.st a b).opcode (s.reg ra).toNat (s.reg rb) fun t => .next (t.advance 3)) a b
    · rw [State.storeByte_toNat] at e
      exact .inl ⟨_, e, qa, qb, ha, hb, rfl⟩
    · have hi := regOf_eq_none_legal ha
      refine .inr (.inr ⟨?_, by simp [Instr.regsLegal, hi]⟩)
      simp only [firstIllegal, hi, Bool.false_eq_true, if_false]
      exact e
    · have hi := regOf_eq_none_legal hb
      have hl := (regOf_eq_some_legal ha).1
      refine .inr (.inr ⟨?_, by simp [Instr.regsLegal, hi]⟩)
      simp only [firstIllegal, hl, if_true]
      exact e
  | push r =>
    obtain ⟨q, hq, e⟩ | ⟨hr, e⟩ := s.withReg_cases (Instr.push r).opcode (s.pc + 1) (fun q =>
      if s.sp = 0 then .next (s.raise .stackPointerRange (some (Instr.push r).opcode) none)
      else s.storeByte (Instr.push r).opcode s.sp.toNat (s.reg q) fun t =>
        .next ((t.setReg Config.spIndex (s.sp - 1)).advance 2)) r
    · by_cases h : s.sp = 0
      · rw [if_pos h] at e
        exact .inr (.inl ⟨_, e, q, hq, h, rfl⟩)
      · rw [if_neg h, State.storeByte_toNat] at e
        exact .inl ⟨_, e, q, hq, h, rfl⟩
    · exact .inr (.inr ⟨e, by simp [Instr.regsLegal, regOf_eq_none_legal hr]⟩)
  | pop r =>
    obtain ⟨q, hq, e⟩ | ⟨hr, e⟩ := s.withReg_cases (Instr.pop r).opcode (s.pc + 1) (fun q =>
      if s.sp = 255 then .next (s.raise .stackPointerRange (some (Instr.pop r).opcode) none)
      else s.loadByte (Instr.pop r).opcode (s.sp.toNat + 1) fun v =>
        .next (((s.setReg Config.spIndex (s.sp + 1)).setReg q v).advance 2)) r
    · by_cases h : s.sp = 255
      · rw [if_pos h] at e
        exact .inr (.inl ⟨_, e, q, hq, h, rfl⟩)
      · have hlt : s.sp.toNat + 1 < 256 := by
          have hlt' := s.sp.isLt
          have hne : s.sp.toNat ≠ 255 := fun h' => h (BitVec.eq_of_toNat_eq h')
          omega
        rw [if_neg h, State.loadByte_of_lt _ _ hlt] at e
        exact .inl ⟨_, e, q, hq, h, rfl⟩
    · exact .inr (.inr ⟨e, by simp [Instr.regsLegal, regOf_eq_none_legal hr]⟩)
  | jeq r =>
    obtain ⟨q, hq, e⟩ | ⟨hr, e⟩ := s.withReg_cases (Instr.jeq r).opcode (s.pc + 1) (fun q =>
      s.withEqualFlag (Instr.jeq r).opcode fun eq => .next (if eq then s.jumpTo q else s.advance 2)) r
    · obtain ⟨h, e'⟩ | ⟨h, e'⟩ := s.withEqualFlag_cases (Instr.jeq r).opcode
        (fun eq => .next (if eq then s.jumpTo q else s.advance 2))
      · exact .inl ⟨_, e.trans e', q, hq, h, rfl⟩
      · exact .inr (.inl ⟨_, e.trans e', q, hq, h, rfl⟩)
    · exact .inr (.inr ⟨e, by simp [Instr.regsLegal, regOf_eq_none_legal hr]⟩)
  | jne r =>
    obtain ⟨q, hq, e⟩ | ⟨hr, e⟩ := s.withReg_cases (Instr.jne r).opcode (s.pc + 1) (fun q =>
      s.withEqualFlag (Instr.jne r).opcode fun eq => .next (if eq then s.advance 2 else s.jumpTo q)) r
    · obtain ⟨h, e'⟩ | ⟨h, e'⟩ := s.withEqualFlag_cases (Instr.jne r).opcode
        (fun eq => .next (if eq then s.advance 2 else s.jumpTo q))
      · exact .inl ⟨_, e.trans e', q, hq, h, rfl⟩
      · exact .inr (.inl ⟨_, e.trans e', q, hq, h, rfl⟩)
    · exact .inr (.inr ⟨e, by simp [Instr.regsLegal, regOf_eq_none_legal hr]⟩)
  | hlt => exact .inl ⟨_, rfl, rfl⟩
  | unrecognised b => exact .inl ⟨_, rfl, rfl⟩

/-- Everything a step can do: stay where the machine does not run, abort at a fetch, or do what the fetched instruction
does (R90, R96, R101). -/
theorem step_cases {s t : State} (h : step s = .next t) :
    (s.status ≠ .running ∧ t = s) ∨
    (s.status = .running ∧ ∃ e, fetch s = .error e ∧ t = s.raise .memoryBounds e.ir (some e.addr)) ∨
    (s.status = .running ∧ ∃ i, fetch s = .ok i ∧
      (Completes i s t ∨ (∃ c, t = s.raise c (some i.opcode) none ∧ ChecksFail i s c) ∨
        (t = s.raise .registerIndex (some i.opcode) (some (s.pc + firstIllegal i)) ∧ i.regsLegal = false))) := by
  unfold step at h
  split at h
  · rename_i hr
    refine .inr ?_
    split at h
    · rename_i e he
      cases h
      exact .inl ⟨hr, e, he, rfl⟩
    · rename_i i hi
      refine .inr ⟨hr, i, hi, ?_⟩
      obtain ⟨u, e, hu⟩ | ⟨c, e, hc⟩ | ⟨e, hl⟩ := exec_cases i s <;> cases e.symm.trans h
      · exact .inl hu
      · exact .inr (.inl ⟨c, rfl, hc⟩)
      · exact .inr (.inr ⟨rfl, hl⟩)
  · cases h
    exact .inl ⟨‹_›, rfl⟩

/-- A completing instruction found its register bytes legal. -/
theorem Completes.regsLegal {i : Instr} {s t : State} (h : Completes i s t) : i.regsLegal = true := by
  cases i <;> simp only [Completes] at h <;> try rfl
  all_goals first
    | (obtain ⟨q, hq, -⟩ := h; simp [Instr.regsLegal, (regOf_eq_some_legal hq).1])
    | (obtain ⟨qa, qb, ha, hb, -⟩ := h; simp [Instr.regsLegal, (regOf_eq_some_legal ha).1, (regOf_eq_some_legal hb).1])

/-- So did an instruction that fails its own check. -/
theorem ChecksFail.regsLegal {i : Instr} {s : State} {c : Cause} (h : ChecksFail i s c) : i.regsLegal = true := by
  cases i <;> simp only [ChecksFail] at h
  all_goals first
    | (obtain ⟨qa, qb, ha, hb, -⟩ := h; simp [Instr.regsLegal, (regOf_eq_some_legal ha).1, (regOf_eq_some_legal hb).1])
    | (obtain ⟨q, hq, -⟩ := h; simp [Instr.regsLegal, (regOf_eq_some_legal hq).1])

/-! The same, read the other way: each case's condition decides the outcome. -/

theorem exec_of_completes {i : Instr} {s t : State} (h : Completes i s t) : exec i s = .next t := by
  cases i <;> simp only [Completes] at h
  case ldi => obtain ⟨q, hq, rfl⟩ := h; simp [(regOf_eq_some_legal hq).2, exec, execLdi]
  case prn => obtain ⟨q, hq, rfl⟩ := h; simp [(regOf_eq_some_legal hq).2, exec, execPrn]
  case jmp => obtain ⟨q, hq, rfl⟩ := h; simp [(regOf_eq_some_legal hq).2, exec, execJmp]
  case jeq =>
    obtain ⟨q, hq, hf, rfl⟩ := h
    simp [(regOf_eq_some_legal hq).2, exec, execJeq, State.withEqualFlag, hf]
  case jne =>
    obtain ⟨q, hq, hf, rfl⟩ := h
    simp [(regOf_eq_some_legal hq).2, exec, execJne, State.withEqualFlag, hf]
  case push =>
    obtain ⟨q, hq, h0, rfl⟩ := h
    simp only [(regOf_eq_some_legal hq).2, exec, execPush, State.withReg_regByte, if_neg h0, State.storeByte_toNat]
    rfl
  case pop =>
    obtain ⟨q, hq, h0, rfl⟩ := h
    have hlt : s.sp.toNat + 1 < 256 := by
      have hlt' := s.sp.isLt
      have hne : s.sp.toNat ≠ 255 := fun h' => h0 (BitVec.eq_of_toNat_eq h')
      omega
    simp only [(regOf_eq_some_legal hq).2, exec, execPop, State.withReg_regByte, if_neg h0,
      State.loadByte_of_lt _ _ hlt]
    rfl
  case mul =>
    obtain ⟨qa, qb, ha, hb, hn, rfl⟩ := h
    have hn' : ¬ (qa = Config.spIndex ∧ (s.reg qa).toNat * (s.reg qb).toNat > 255) := hn
    simp only [(regOf_eq_some_legal ha).2, (regOf_eq_some_legal hb).2, exec, execMul, State.withRegs_regByte,
      State.aluInstr, alu, State.aluWrite, if_neg hn']
  case cmp =>
    obtain ⟨qa, qb, ha, hb, rfl⟩ := h
    simp only [(regOf_eq_some_legal ha).2, (regOf_eq_some_legal hb).2, exec, execCmp, State.withRegs_regByte,
      State.aluInstr, alu]
  case st =>
    obtain ⟨qa, qb, ha, hb, rfl⟩ := h
    simp only [(regOf_eq_some_legal ha).2, (regOf_eq_some_legal hb).2, exec, execSt, State.withRegs_regByte,
      State.storeByte_toNat]
  case hlt => subst h; rfl
  case unrecognised => subst h; rfl

theorem exec_of_checksFail {i : Instr} {s : State} {c : Cause} (h : ChecksFail i s c) :
    exec i s = .next (s.raise c (some i.opcode) none) := by
  cases i <;> simp only [ChecksFail] at h
  case mul =>
    obtain ⟨qa, qb, ha, hb, h7, hp, rfl⟩ := h
    have hn : qa = Config.spIndex ∧ (s.reg qa).toNat * (s.reg qb).toNat > 255 := ⟨h7, hp⟩
    simp only [(regOf_eq_some_legal ha).2, (regOf_eq_some_legal hb).2, exec, execMul, State.withRegs_regByte,
      State.aluInstr, alu, State.aluWrite, if_pos hn]
  case push =>
    obtain ⟨q, hq, h0, rfl⟩ := h
    simp only [(regOf_eq_some_legal hq).2, exec, execPush, State.withReg_regByte, if_pos h0]
  case pop =>
    obtain ⟨q, hq, h0, rfl⟩ := h
    simp only [(regOf_eq_some_legal hq).2, exec, execPop, State.withReg_regByte, if_pos h0]
  case jeq =>
    obtain ⟨q, hq, hf, rfl⟩ := h
    simp [(regOf_eq_some_legal hq).2, exec, execJeq, State.withEqualFlag, hf]
  case jne =>
    obtain ⟨q, hq, hf, rfl⟩ := h
    simp [(regOf_eq_some_legal hq).2, exec, execJne, State.withEqualFlag, hf]

theorem exec_of_illegal {i : Instr} {s : State} (h : i.regsLegal = false) :
    exec i s = .next (s.raise .registerIndex (some i.opcode) (some (s.pc + firstIllegal i))) := by
  obtain ⟨t, _, ht⟩ | ⟨c, _, hc⟩ | ⟨e, _⟩ := exec_cases i s
  · rw [ht.regsLegal] at h; cases h
  · rw [hc.regsLegal] at h; cases h
  · exact e

end Sys2Proof.Machine
end

