-- ==== Sys2Proof/Laws/PerInstr.lean ====
section
/-! SUPPORT. A fact about each instruction as syntax: the first byte of its encoding is its opcode byte, and the
encoding is as long as the opcode byte says (spec/30_encoding.md R70, R76). -/

namespace Sys2Proof.Laws.EncodedShape

/-- The encoding begins with the opcode byte and, for an encodable instruction, has the length that byte decides. -/
def Statement (i : Instr) : Prop :=
  (encode i).head? = some i.opcode ∧ (i.encodable = true → (encode i).length = opcodeLength i.opcode)

theorem ldi (r v : Byte) : Statement (.ldi r v) := ⟨rfl, fun _ => rfl⟩
theorem prn (r : Byte) : Statement (.prn r) := ⟨rfl, fun _ => rfl⟩
theorem mul (a b : Byte) : Statement (.mul a b) := ⟨rfl, fun _ => rfl⟩
theorem cmp (a b : Byte) : Statement (.cmp a b) := ⟨rfl, fun _ => rfl⟩
theorem push (r : Byte) : Statement (.push r) := ⟨rfl, fun _ => rfl⟩
theorem pop (r : Byte) : Statement (.pop r) := ⟨rfl, fun _ => rfl⟩
theorem st (a b : Byte) : Statement (.st a b) := ⟨rfl, fun _ => rfl⟩
theorem jmp (r : Byte) : Statement (.jmp r) := ⟨rfl, fun _ => rfl⟩
theorem jeq (r : Byte) : Statement (.jeq r) := ⟨rfl, fun _ => rfl⟩
theorem jne (r : Byte) : Statement (.jne r) := ⟨rfl, fun _ => rfl⟩
theorem hlt : Statement .hlt := ⟨rfl, fun _ => rfl⟩

theorem unrecognised (b : Byte) : Statement (.unrecognised b) := by
  refine ⟨rfl, fun h => ?_⟩
  have hb : opcodeBytes.contains b = false := by simpa only [Instr.encodable, Bool.not_eq_true'] using h
  simp only [encode, Instr.opcode, opcodeLength, decodeOpcode_unrecognised hb, Form.operands, List.length_singleton]

end Sys2Proof.Laws.EncodedShape
end

