-- ==== Sys2Proof/Tests/Slice0.lean ====
section
/-! SUPPORT. Tests of the model, with values from spec/95_test_vectors.md and spec/30_encoding.md, and one witness for
every statement that has hypotheses. -/

namespace Sys2Proof.Tests

open Sys2Proof.Machine Sys2Proof.Claims

/-! ### Building small states -/

/-- The state of an outcome that is a next state. -/
def after : Result → Option State
  | .next t => some t
  | .fault _ => none
  | .refused _ => none

theorem after_eq_some {o : Result} {t : State} : after o = some t ↔ o = .next t := by
  cases o <;> simp [after]

/-- A running machine: some registers written, then bytes placed from `pc` on. -/
def start (pc : Nat) (regs : List (Reg × Byte)) (bytes : List Byte) : State :=
  ((regs.foldl (fun s r => s.setReg r.1 r.2) State.reset).setPc pc).placeAtPc bytes

/-- The same after a CMP that left Equal as `e`. -/
def compared (e : Bool) (s : State) : State := s.setFlags ⟨e, !e, false⟩

/-- The Aborted state the vectors describe: `fault = (cause, pc, ir, addr)`, all else as before the step. -/
def failed (s : State) (record : FaultRecord) : State :=
  { s with status := .aborted, fault := some record, events := s.events ++ [.fatal record] }

/-- The same state, Halted. -/
def halted (s : State) : State := { s with status := .halted }

/-- A byte stored in memory. -/
def poked (s : State) (a : Nat) (v : Byte) : State := s.setMem (s.mem.poke a v)

/-! ### Well-formedness: an ill-formed term for each check -/

theorem test_wf_ldi : (Instr.ldi 8 0).wellFormed = false ∧ (Instr.ldi 7 255).wellFormed = true := by decide
theorem test_wf_prn : (Instr.prn 8).wellFormed = false := by decide
theorem test_wf_mul : (Instr.mul 8 0).wellFormed = false ∧ (Instr.mul 0 8).wellFormed = false := by decide
theorem test_wf_cmp : (Instr.cmp 255 0).wellFormed = false ∧ (Instr.cmp 0 255).wellFormed = false := by decide
theorem test_wf_push : (Instr.push 128).wellFormed = false := by decide
theorem test_wf_pop : (Instr.pop 8).wellFormed = false := by decide
theorem test_wf_st : (Instr.st 8 0).wellFormed = false ∧ (Instr.st 0 8).wellFormed = false := by decide
theorem test_wf_jmp : (Instr.jmp 8).wellFormed = false := by decide
theorem test_wf_jeq : (Instr.jeq 8).wellFormed = false := by decide
theorem test_wf_jne : (Instr.jne 8).wellFormed = false := by decide
theorem test_wf_hlt : Instr.hlt.wellFormed = true := by decide

/-- None of the eleven opcode bytes is an unrecognised byte. -/
theorem test_wf_unrecognised : (opcodeBytes.all fun b => !(Instr.unrecognised b).wellFormed) = true := by decide

/-! ### Decoding: words written out bit by bit from R72 (the `encoding` column), operands from the vectors -/

/-- The instruction a list of bytes decodes to. -/
def decoded (bytes : List Byte) : Option Instr := (decode bytes).toOption

theorem test_decode_ldi : decoded [0b10000010, 0b00000000, 0b00001000] = some (.ldi 0 8) := by decide
theorem test_decode_prn : decoded [0b01000111, 0b00000001] = some (.prn 1) := by decide
theorem test_decode_mul : decoded [0b10100010, 0b00000001, 0b00000111] = some (.mul 1 7) := by decide
theorem test_decode_cmp : decoded [0b10100111, 0b00000000, 0b00000010] = some (.cmp 0 2) := by decide
theorem test_decode_push : decoded [0b01000101, 0b00000111] = some (.push 7) := by decide
theorem test_decode_pop : decoded [0b01000110, 0b00000001] = some (.pop 1) := by decide
theorem test_decode_st : decoded [0b10000100, 0b00000111, 0b00000001] = some (.st 7 1) := by decide
theorem test_decode_jmp : decoded [0b01010100, 0b00000011] = some (.jmp 3) := by decide
theorem test_decode_jeq : decoded [0b01010101, 0b00000010] = some (.jeq 2) := by decide
theorem test_decode_jne : decoded [0b01010110, 0b00000011] = some (.jne 3) := by decide
theorem test_decode_hlt : decoded [0b00000001] = some .hlt := by decide

/-- T-DEC-12 to T-DEC-16: each is unrecognised, one byte long, whatever follows. -/
theorem test_decode_unrecognised :
    ([0x00, 0xA0, 0x83, 0x57, 0x58, 0x50, 0x11, 0xFF, 0x02, 0x81, 0x48, 0x44].all fun b =>
      decide (decoded [b, 0, 1] = some (.unrecognised b)) && decide (opcodeLength b = 1)) = true := by decide

/-- A register byte is taken whole, not masked (R74), and so is the immediate (R75). -/
theorem test_decode_whole_bytes : decoded [0x82, 0xF8, 0xFF] = some (.ldi 0xF8 0xFF) := by decide

/-- What is cut short is refused by name, with the first byte that is missing. -/
theorem test_decode_truncated :
    decode [] = .error (.noOpcode 0) ∧ decode [0x82] = .error (.noFirstOperand 0x82 1) ∧
    decode [0x82, 0] = .error (.noSecondOperand 0x82 2) := ⟨rfl, rfl, rfl⟩

/-- No row of the opcode map has the opcode byte of another. -/
theorem test_opcodes_distinct : (opcodeTable.map Prod.fst).Pairwise (fun a b => a ≠ b) := by decide

/-- A word of the opcode table: with the row's bits only, the operands are zeros. -/
theorem test_table_word : decodeTableWord 8 0x82 = some (.ldi 0 0) ∧ decodeTableWord 24 0x010084 = some (.st 0 1) := by
  decide

/-! ### The instructions -/

/-- T-LDI-2. -/
theorem test_ldi :
    after (step (start 0 [] [0x82, 3, 0xFF])) = some (((start 0 [] [0x82, 3, 0xFF]).setReg 3 255).setPc 3) := by decide

/-- T-LDI-5. -/
theorem test_ldi_bad_register :
    after (step (start 0 [] [0x82, 8, 0])) =
      some (failed (start 0 [] [0x82, 8, 0]) ⟨.registerIndex, 0, some 0x82, some 1⟩) := by decide

/-- T-ST-4: the byte that is overwritten is the instruction's own operand. -/
theorem test_st_own_operand :
    after (step (start 0 [(0, 1), (1, 5)] [0x84, 0, 1])) =
      some ((poked (start 0 [(0, 1), (1, 5)] [0x84, 0, 1]) 1 5).setPc 3) := by decide

/-- T-ST-7: the first operand is reported. -/
theorem test_st_bad_registers :
    after (step (start 0 [] [0x84, 9, 8])) =
      some (failed (start 0 [] [0x84, 9, 8]) ⟨.registerIndex, 0, some 0x84, some 1⟩) := by decide

/-- T-STK-2: the old stack pointer is pushed. -/
theorem test_push_sp :
    after (step (start 0 [] [0x45, 7])) =
      some (((poked (start 0 [] [0x45, 7]) 0xF4 0xF4).setReg 7 0xF3).setPc 2) := by decide

/-- T-STK-4. -/
theorem test_push_at_zero :
    after (step (start 3 [(7, 0)] [0x45, 0])) =
      some (failed (start 3 [(7, 0)] [0x45, 0]) ⟨.stackPointerRange, 3, some 0x45, none⟩) := by decide

/-- T-STK-3: the popped byte wins over the increment. -/
theorem test_pop_sp :
    after (step (poked (start 0 [(7, 0xF3)] [0x46, 7]) 0xF4 42)) =
      some (((poked (start 0 [(7, 0xF3)] [0x46, 7]) 0xF4 42).setReg 7 42).setPc 2) := by decide

/-- T-STK-7. -/
theorem test_pop_to_255 :
    after (step (poked (start 0 [(7, 254)] [0x46, 1]) 255 9)) =
      some ((((poked (start 0 [(7, 254)] [0x46, 1]) 255 9).setReg 7 255).setReg 1 9).setPc 2) := by decide

/-- T-MUL-2. -/
theorem test_mul_wraps :
    after (step (start 0 [(0, 200), (1, 2)] [0xA2, 0, 1])) =
      some (((start 0 [(0, 200), (1, 2)] [0xA2, 0, 1]).setReg 0 144).setPc 3) := by decide

/-- T-MUL-10: 488 does not fit the stack pointer. -/
theorem test_mul_into_sp :
    after (step (start 0 [(0, 2)] [0xA2, 7, 0])) =
      some (failed (start 0 [(0, 2)] [0xA2, 7, 0]) ⟨.stackPointerRange, 0, some 0xA2, none⟩) := by decide

/-- T-CMP-8: 128 is not negative. -/
theorem test_cmp_unsigned :
    after (step (start 0 [(0, 128), (1, 127)] [0xA7, 0, 1])) =
      some (((start 0 [(0, 128), (1, 127)] [0xA7, 0, 1]).setFlags ⟨false, true, false⟩).setPc 3) := by decide

/-- T-CMP-4. -/
theorem test_cmp_less :
    after (step (start 0 [(1, 255)] [0xA7, 0, 1])) =
      some (((start 0 [(1, 255)] [0xA7, 0, 1]).setFlags ⟨false, false, true⟩).setPc 3) := by decide

/-- T-JMP-1. -/
theorem test_jmp : after (step (start 20 [(3, 12)] [0x54, 3])) = some ((start 20 [(3, 12)] [0x54, 3]).setPc 12) := by
  decide

/-- T-JMP-2 and T-JMP-3. -/
theorem test_jeq :
    (after (step (compared true (start 10 [(2, 30)] [0x55, 2])))).map State.pc = some 30 ∧
    (after (step (compared false (start 10 [(2, 30)] [0x55, 2])))).map State.pc = some 12 := by decide

/-- T-JMP-9: the register byte is checked although the jump would not be taken. -/
theorem test_jeq_bad_register :
    after (step (compared false (start 10 [] [0x55, 8]))) =
      some (failed (compared false (start 10 [] [0x55, 8])) ⟨.registerIndex, 10, some 0x55, some 11⟩) := by decide

/-- T-JMP-4 and T-JMP-5. -/
theorem test_jne :
    (after (step (compared false (start 20 [(3, 12)] [0x56, 3])))).map State.pc = some 12 ∧
    (after (step (compared true (start 20 [(3, 12)] [0x56, 3])))).map State.pc = some 22 := by decide

/-- T-JMP-7: not "taken because E is zero". -/
theorem test_jne_before_cmp :
    after (step (start 3 [] [0x56, 0])) =
      some (failed (start 3 [] [0x56, 0]) ⟨.flagsUndefined, 3, some 0x56, none⟩) := by decide

/-- T-PRN-5. -/
theorem test_prn_sp : (after (step (start 0 [] [0x47, 7]))).map State.out = some [244] := by decide

/-- T-HLT-2: a HLT in the last cell. -/
theorem test_hlt_last_cell :
    after (step (start 255 [] [0x01])) = some (halted (start 255 [] [0x01])) := by decide

/-- T-UNK-2: the report, and the bytes after it are no operands. -/
theorem test_unrecognised :
    after (step (start 9 [] [0xA0, 0x01])) =
      some { start 9 [] [0xA0, 0x01] with pc := 10, events := [.report 9 0xA0] } := by decide

/-- T-UNK-3. -/
theorem test_unrecognised_last_cell : (after (step (start 255 [] []))).map State.pc = some 256 := by decide

/-- T-UNK-4. -/
theorem test_fetch_at_256 :
    after (step (start 256 [] [])) = some (failed (start 256 [] []) ⟨.memoryBounds, 256, none, some 256⟩) := by decide

/-- T-JMP-10: the operand fetch comes before the flag check. -/
theorem test_operand_fetch_first :
    after (step (start 255 [] [0x55])) =
      some (failed (start 255 [] [0x55]) ⟨.memoryBounds, 255, some 0x55, some 256⟩) := by decide

/-! ### The loader and the host's text -/

/-- The byte a line of an image stands for: none where the line is skipped, and a load error where it is bad. -/
def lineByte (line : String) : Option (List Byte) := (imageBytes (.text line.toList)).toOption

/-- T-LD-2, T-LD-3, T-LD-4 and T-LD-17. -/
theorem test_load_literals :
    lineByte "10000010 # LDI R0,8" = some [0x82] ∧ lineByte "00001000#8" = some [0x08] ∧
    lineByte "  01000111\t" = some [0x47] ∧ lineByte "10000010\r\n" = some [0x82] := by decide

/-- T-LD-5 to T-LD-8. -/
theorem test_load_skipped :
    lineByte "" = some [] ∧ lineByte "# comment only" = some [] ∧ lineByte "  \t" = some [] ∧
    lineByte " #10000010" = some [] := by decide

/-- T-LD-9 to T-LD-14. -/
theorem test_load_malformed :
    (["1000001", "100000101", "10000012", "0b10000010", "1000 0010", "LDI"].all fun l =>
      decide (lineByte l = none)) = true := by decide

/-- T-LD-20: the program of S1. -/
theorem test_load_program :
    (State.reset.load (.text "10000010\n00000000\n00001000\n01000111\n00000000\n00000001\n".toList)) =
      { State.reset with status := .running, mem := [(0, 0x82), (2, 8), (3, 0x47), (5, 1)] } := by decide

/-- T-LD-25 and T-LD-26. -/
theorem test_load_fails :
    State.reset.load (.text "10000010\n00000000\n0000100\n".toList) =
      { State.reset with status := .loadFailed, events := [.loadError .parse] } ∧
    State.reset.load .missing = { State.reset with status := .loadFailed, events := [.loadError .notFound] } := by
  decide

/-- T-PRN-1 to T-PRN-5: the host's digits. -/
theorem test_digits :
    digits .lower 2 8 = "1000".toList ∧ digits .lower 16 0 = "0".toList ∧ digits .upper 16 255 = "FF".toList ∧
    digits .lower 16 0xF4 = "f4".toList ∧ digits .lower 10 144 = "144".toList ∧
    digits .lower 2 144 = "10010000".toList := by decide

/-- An opcode-table word placed at reset is what the next step runs. -/
theorem test_withFetchWord :
    after (step (State.reset.withFetchWord 24 0xFF0382)) =
      some (((State.reset.withFetchWord 24 0xFF0382).setReg 3 255).setPc 3) := by decide

/-! ### Witnesses: for every statement with hypotheses, a state and operands that meet all of them together, clause by
clause and at the ends of the ranges -/

theorem witness_StepKeepsInvariant :
    ∃ s t, s.Inv ∧ step s = .next t ∧ t ≠ s :=
  ⟨start 0 [] [0x82, 0, 8], _, by decide, rfl, by decide⟩

/-- The invariant also holds of states that have run, jumped over the end, aborted, halted or failed to load. -/
theorem witness_invariant_holds_widely :
    (compared true (start 256 [(7, 0)] [])).Inv ∧
    (failed (start 256 [] []) ⟨.memoryBounds, 256, none, some 256⟩).Inv ∧
    (halted (start 255 [] [0x01])).Inv ∧ (State.reset.load .missing).Inv :=
  ⟨by decide, by decide, by decide, by decide⟩

theorem witness_LoadKeepsInvariant : State.reset.Inv ∧ (start 0 [] [0x01]).Inv := by decide

theorem witness_LoadPlacesImageBytes :
    imageBytes (.text []) = .ok [] ∧ imageBytes (.text "11111111".toList) = .ok [0xFF] ∧
    (imageBytes (.text (imageText (List.replicate 256 0x80)))).toOption = some (List.replicate 256 0x80) :=
  ⟨rfl, rfl, by decide +kernel⟩

theorem witness_FailedLoadLeavesResetState :
    imageBytes .missing = .error .notFound ∧ imageBytes (.text "1".toList) = .error .parse ∧
    imageBytes (.text (imageText (List.replicate 257 0x80))) = .error .overflow :=
  ⟨rfl, rfl, by decide +kernel⟩

/-- A literal line without white space or comment. -/
theorem literalLine_literal (b : Byte) : LiteralLine (literal b) b :=
  ⟨[], [], [], by simp [AllBlank], by simp [AllBlank], .inl rfl, by simp⟩

theorem linesGive_replicate (b : Byte) : ∀ n, LinesGive (List.replicate n (literal b)) (List.replicate n b)
  | 0 => .nothing
  | n + 1 => .byte (literalLine_literal b) (linesGive_replicate b n)

theorem skippedLine_note : SkippedLine " \t# note".toList :=
  ⟨" \t".toList, "# note".toList, by simp [AllBlank, Blank], .inr rfl, rfl⟩

/-- Two lines: a comment after white space, and the literal of 0x82 between white space and a comment. -/
theorem witness_GoodImagesExactly :
    ([0x82] : List Byte).length ≤ 256 ∧
    TextOf [" \t# note".toList, " 10000010 # LDI".toList] " \t# note\n 10000010 # LDI".toList ∧
    LinesGive [" \t# note".toList, " 10000010 # LDI".toList] [0x82] :=
  ⟨by decide, ⟨by decide, by decide⟩, .skip skippedLine_note
    (.byte ⟨[' '], [' '], "# LDI".toList, by simp [AllBlank, Blank], by simp [AllBlank, Blank], .inr rfl, by decide⟩
      .nothing)⟩

theorem witness_LiteralsAreEightBinaryDigits :
    parseLiteral "10000010".toList = some 0x82 ∧ literal 0x82 = "10000010".toList := by decide

theorem witness_SkippedLinesUseNoAddress :
    ('\n' ∉ " \t# note".toList ∧ SkippedLine " \t# note".toList) ∧ ('\n' ∉ ([] : List Char) ∧ SkippedLine []) :=
  ⟨⟨by decide, skippedLine_note⟩, by simp, [], [], by simp [AllBlank], .inl rfl, rfl⟩

theorem witness_ImageTextRoundTrip : (List.replicate 256 (0 : Byte)).length ≤ 256 :=
  Nat.le_of_eq List.length_replicate

theorem witness_OpcodeMapAndLengths :
    ([0x00, 0xA0, 0xFF] : List Byte).all
      (fun b => decide (b ∉ [0x82, 0x47, 0xA2, 0xA7, 0x45, 0x46, 0x84, 0x54, 0x55, 0x56, (0x01 : Byte)])) = true := by
  decide

theorem witness_DecodeOfEncode :
    (Instr.ldi 255 255).encodable = true ∧ (Instr.unrecognised 0).encodable = true ∧
    (Instr.unrecognised 1).encodable = false := by decide

theorem witness_EncodeOfDecode : decode [0x47, 8, 3] = .ok (.prn 8) := rfl

theorem witness_StepRunsFetchedInstruction :
    (start 253 [] [0x84, 0, 1]).status = .running ∧ fetch (start 253 [] [0x84, 0, 1]) = .ok (.st 0 1) := ⟨rfl, rfl⟩

/-- A three-byte instruction in the last three cells, and a one-byte one in the last. -/
theorem witness_StepRunsEncodedInstruction :
    (start 253 [] [0x84, 0, 1]).status = .running ∧ (Instr.st 0 1).encodable = true ∧
    (∀ k : Fin 3, memRead (start 253 [] [0x84, 0, 1]).mem (253 + k) = some ((encode (.st 0 1))[k])) ∧
    memRead (start 255 [] [0x01]).mem 255 = some 0x01 := by decide

theorem witness_StepOnlyWhileRunning :
    State.reset.status ≠ .running ∧ (State.reset.load .missing).status ≠ .running ∧
    (halted State.reset).status ≠ .running ∧
    (failed (start 256 [] []) ⟨.memoryBounds, 256, none, some 256⟩).status ≠ .running := by decide

theorem witness_OpcodeFetchPastMemoryAborts :
    (start 256 [] []).status = .running ∧ 256 ≤ (start 256 [] []).pc := by decide

/-- The state with one opcode byte at `pc` and zeros after it. -/
abbrev at_ (pc : Nat) (ir : Byte) : State := start pc [] [ir]

/-- Two-byte instructions at 255, three-byte ones at 254 and 255; at 253 a three-byte one still fits. -/
theorem witness_OperandFetchPastMemoryAborts :
    ([(255, 0x47), (255, 0x55), (254, 0x82), (255, 0x82), (254, 0xA7)] : List (Nat × Byte)).all (fun (pc, ir) =>
      decide ((at_ pc ir).status = .running ∧ AtOpcode (at_ pc ir) ir ∧ 256 < (at_ pc ir).pc + opcodeLength ir)) = true ∧
    ¬ 256 < (at_ 253 0x82).pc + opcodeLength 0x82 := by decide

theorem witness_IllegalRegisterByteAborts :
    8 ≤ (8 : Byte).toNat ∧ 8 ≤ (255 : Byte).toNat ∧ (7 : Byte).toNat ≤ 7 := by decide

/-- The states of the abort statements: one for each cause that a step can raise. -/
def aborting : List State :=
  [ start 256 [] [], start 254 [] [0x82], start 0 [] [0x47, 8], start 0 [] [0x55, 0], start 0 [] [0x56, 0],
    start 0 [(7, 0)] [0x45, 0], start 0 [(7, 255)] [0x46, 0], start 0 [(7, 16), (0, 16)] [0xA2, 7, 0] ]

theorem witness_AbortIsPrecise :
    (aborting.all fun s =>
      decide (s.status = .running ∧ (after (step s)).map State.status = some .aborted)) = true := by decide

theorem witness_AbortCausesExactly :
    aborting.map (fun s => ((after (step s)).bind State.fault).map FaultRecord.cause) =
      [ some .memoryBounds, some .memoryBounds, some .registerIndex, some .flagsUndefined, some .flagsUndefined,
        some .stackPointerRange, some .stackPointerRange, some .stackPointerRange ] := by decide

theorem witness_StatusTransitions :
    (∃ s t, s.status = .running ∧ step s = .next t ∧ t.status = .running) ∧
    (∃ s t, s.status = .running ∧ step s = .next t ∧ t.status = .halted) ∧
    (∃ s t, s.status = .running ∧ step s = .next t ∧ t.status = .aborted) ∧
    (∃ s t, s.Ended ∧ step s = .next t) ∧
    (∃ s, s.status = .running ∧ AtOpcode s 0x54 ∧ OperandAt s (s.pc + 1) 0 ∧ (s.reg 0).toNat = s.pc) :=
  ⟨⟨start 0 [] [], _, rfl, rfl, rfl⟩, ⟨start 0 [] [0x01], _, rfl, rfl, rfl⟩, ⟨start 256 [] [], _, rfl, rfl, rfl⟩,
    ⟨halted State.reset, _, .inl rfl, rfl⟩, ⟨start 3 [(0, 3)] [0x54, 0], rfl, rfl, ⟨0, rfl, rfl⟩, rfl⟩⟩

/-- Every opcode, at the last address where it fits, completes from a state with readable flags. -/
theorem witness_ProgramCounterUpdate :
    ([(253, 0x82), (253, 0xA2), (253, 0xA7), (253, 0x84), (254, 0x47), (254, 0x45), (254, 0x46), (254, 0x54),
      (254, 0x55), (254, 0x56), (255, 0x01)] : List (Nat × Byte)).all (fun (pc, ir) =>
      decide ((compared true (at_ pc ir)).status = .running ∧ AtOpcode (compared true (at_ pc ir)) ir ∧
        ((after (step (compared true (at_ pc ir)))).map State.status).getD .aborted ≠ .aborted)) = true := by decide

theorem witness_FlagsKeptUntilNextCompare :
    ∃ s t, step s = .next t ∧ ¬ AtOpcode s 0xA7 ∧ s.flv = true ∧ t ≠ s :=
  ⟨compared true (start 0 [] [0x56, 0]), _, rfl, by decide, rfl, by decide⟩

theorem witness_FlagsValidOnlyByCompare :
    (∃ s t, step s = .next t ∧ s.flv = true ∧ t ≠ s) ∧ (∃ s t, step s = .next t ∧ s.flv = false ∧ t.flv = true) :=
  ⟨⟨compared true (start 0 [] []), _, rfl, rfl, by decide⟩, ⟨start 0 [] [0xA7, 0, 1], _, rfl, rfl, rfl⟩⟩

theorem witness_GreaterAndLessAreNeverRead :
    (∃ s t, step s = .next t ∧ ¬ AtOpcode s 0xA7) ∧ (∃ s t, step s = .next t ∧ t.status ≠ .running ∧ AtOpcode s 0xA7) ∧
    (∃ s t, step s = .next t ∧ AtOpcode s 0xA7 ∧ t.status = .running) :=
  ⟨⟨start 0 [] [0x55, 0], _, rfl, by decide⟩, ⟨start 255 [] [0xA7], _, rfl, by decide, by decide⟩,
    ⟨start 0 [] [0xA7, 0, 1], _, rfl, by decide, by decide⟩⟩

theorem witness_MemoryChangesOnlyByStAndPush :
    (∃ s t, s.mem.wf = true ∧ step s = .next t ∧ memRead t.mem 255 ≠ memRead s.mem 255) ∧
    (∃ s t, s.mem.wf = true ∧ step s = .next t ∧ memRead t.mem 0xF4 ≠ memRead s.mem 0xF4) :=
  ⟨⟨start 0 [(0, 255), (1, 0xAB)] [0x84, 0, 1], _, by decide, rfl, by decide⟩,
    ⟨start 0 [(0, 5)] [0x45, 0], _, by decide, rfl, by decide⟩⟩

theorem witness_RegistersChangeOnlyAsTabled :
    (∃ s t, step s = .next t ∧ t.reg 7 ≠ s.reg 7 ∧ AtOpcode s 0x82) ∧
    (∃ s t, step s = .next t ∧ t.reg 0 ≠ s.reg 0 ∧ AtOpcode s 0xA2) ∧
    (∃ s t, step s = .next t ∧ t.reg 0 ≠ s.reg 0 ∧ AtOpcode s 0x46) ∧
    (∃ s t, step s = .next t ∧ t.reg 7 ≠ s.reg 7 ∧ AtOpcode s 0x45) :=
  ⟨⟨start 0 [] [0x82, 7, 0x10], _, rfl, by decide, by decide⟩,
    ⟨start 0 [(0, 8), (1, 9)] [0xA2, 0, 1], _, rfl, by decide, by decide⟩,
    ⟨poked (start 0 [] [0x46, 0]) 0xF5 9, _, rfl, by decide, by decide⟩,
    ⟨start 0 [] [0x45, 0], _, rfl, by decide, by decide⟩⟩

theorem witness_EventsOfAStep :
    (∃ s t, step s = .next t ∧ t.events = s.events ++ [.out (s.reg 7)]) ∧
    (∃ s t, step s = .next t ∧ t.events = s.events ++ [.report s.pc 0xA0]) ∧
    (∃ s t r, step s = .next t ∧ t.events = s.events ++ [.fatal r]) :=
  ⟨⟨start 0 [] [0x47, 7], _, rfl, rfl⟩, ⟨start 0 [] [0xA0], _, rfl, rfl⟩, ⟨start 256 [] [], _, _, rfl, rfl⟩⟩

theorem witness_StepRefinesPseudocode :
    (start 255 [] [0x55]).mem.wf = true ∧ (start 255 [] [0x55]).status = .running := by decide

theorem witness_LdiLoadsImmediate :
    8 ≤ (8 : Byte).toNat ∧
    ([254, 255].all fun pc =>
      decide ((at_ pc 0x82).status = .running ∧ AtOpcode (at_ pc 0x82) 0x82 ∧ 254 ≤ (at_ pc 0x82).pc)) = true := by
  decide

theorem witness_StStoresThroughRegister :
    State.reset.mem.wf = true ∧ 8 ≤ (8 : Byte).toNat ∧ (7 : Byte).toNat ≤ 7 ∧
    ([254, 255].all fun pc =>
      decide ((at_ pc 0x84).status = .running ∧ AtOpcode (at_ pc 0x84) 0x84 ∧ 254 ≤ (at_ pc 0x84).pc)) = true := by
  decide

theorem witness_PushStoresThenDecrements :
    (start 0 [(7, 1)] [0x45, 7]).mem.wf = true ∧ (start 0 [(7, 1)] [0x45, 7]).sp ≠ 0 ∧
    (start 0 [(7, 0)] [0x45, 7]).sp = 0 := by decide

theorem witness_PopIncrementsThenLoads :
    (start 0 [(7, 254)] [0x46, 7]).sp ≠ 255 ∧ (start 0 [(7, 255)] [0x46, 7]).sp = 255 := by decide

theorem witness_PushThenPopRoundTrips :
    (start 0 [(7, 1)] [0x45, 7]).mem.wf = true ∧ (start 0 [(7, 1)] [0x45, 7]).sp ≠ 0 := by decide

/-- 15 times 17 is 255 and fits the stack pointer; 16 times 16 is 256 and does not. -/
theorem witness_MulMultipliesModulo256 :
    ¬ ((7 : Reg) = 7 ∧ ((start 0 [(7, 15), (0, 17)] []).reg 7).toNat * ((start 0 [(7, 15), (0, 17)] []).reg 0).toNat > 255) ∧
    ((start 0 [(7, 16), (0, 16)] []).reg 7).toNat * ((start 0 [(7, 16), (0, 16)] []).reg 0).toNat > 255 := by decide

theorem witness_JmpJumpsToRegister :
    8 ≤ (8 : Byte).toNat ∧ (at_ 255 0x54).status = .running ∧ AtOpcode (at_ 255 0x54) 0x54 ∧ (at_ 255 0x54).pc = 255 := by
  decide

theorem witness_JeqJumpsWhenEqual :
    (compared true State.reset).flv = true ∧ (compared false State.reset).flv = true ∧ State.reset.flv = false := by decide

theorem witness_JneJumpsWhenNotEqual :
    (compared true State.reset).flv = true ∧ (compared false State.reset).flv = true ∧ State.reset.flv = false := by decide

theorem witness_MemReadIsBoundsChecked : 0 ≤ 255 ∧ 255 ≤ 255 ∧ 256 > 255 := by decide

theorem witness_MemWriteChangesOneCell : State.reset.mem.wf = true ∧ 255 ≤ 255 ∧ 256 > 255 := by decide

theorem witness_AluFootprint :
    (∃ t, alu .mul 0 1 State.reset = .ok t) ∧ (∃ t, alu .add 7 7 (start 0 [(7, 127)] []) = .ok t) ∧
    (start 9 [] [0x01]).regs = State.reset.regs ∧ (start 9 [] [0x01]).flags = State.reset.flags ∧
    (start 9 [] [0x01]).flv = State.reset.flv :=
  ⟨⟨_, rfl⟩, ⟨_, rfl⟩, rfl, rfl, rfl⟩

theorem witness_AluAddAndUnsupported :
    ((7 : Reg) = 7 ∧ ((start 0 [(7, 128)] []).reg 7).toNat + ((start 0 [(7, 128)] []).reg 7).toNat > 255) ∧
    ¬ ((7 : Reg) = 7 ∧ ((start 0 [(7, 127)] []).reg 7).toNat + ((start 0 [(7, 127)] []).reg 7).toNat > 255) := by decide

theorem witness_PrintedDigitsAreTheByte :
    (digits .lower 2 0).head? = some '0' ∧ (digits .upper 16 255).head? = some 'F' ∧ 'F' ∈ digits .upper 16 255 ∧
    (2 : Nat) ∈ [16, 10, 2] := by decide

theorem witness_ContentOfALine :
    ('#' ∉ " \t".toList ∧ Comment "# note".toList) ∧
    (AllBlank " \t".toList ∧ AllBlank ['\r'] ∧ Comment [] ∧ '#' ∉ "1000 0010".toList ∧
      (∀ c ∈ "1000 0010".toList.head?, ¬ Blank c) ∧ (∀ c ∈ "1000 0010".toList.getLast?, ¬ Blank c)) :=
  ⟨⟨by decide, .inr rfl⟩, by simp [AllBlank, Blank], by simp [AllBlank, Blank], .inl rfl, by decide,
    by simp [Blank], by simp [Blank]⟩

/-- A bad line after 255 literal lines, and a line too many after 256. -/
theorem witness_LoadErrorsByCause :
    (∃ cs bs, TextOf (List.replicate 255 (literal 1) ++ ['2'] :: []) cs ∧
      LinesGive (List.replicate 255 (literal 1)) bs ∧ ¬ SkippedLine ['2'] ∧ bs.length ≤ 255 ∧ ∀ b, ¬ LiteralLine ['2'] b) ∧
    (∃ cs bs, TextOf (List.replicate 256 (literal 1) ++ literal 0 :: []) cs ∧
      LinesGive (List.replicate 256 (literal 1)) bs ∧ ¬ SkippedLine (literal 0) ∧ bs.length = 256) := by
  have notSkipped : ∀ (c : Char) (l : List Char), ¬ Blank c → c ≠ '#' → ¬ SkippedLine (c :: l) := by
    rintro c l hc hh ⟨blanks, comment, hb, hcom, he⟩
    cases blanks with
    | nil =>
      cases he
      rcases hcom with h | h
      · cases h
      · exact hh (Option.some.inj h)
    | cons x xs => cases he; exact hc (hb c (by simp))
  have lines : ∀ n (l : List Char), '\n' ∉ l → ∀ m ∈ List.replicate n (literal 1) ++ l :: [], '\n' ∉ m := by
    intro n l hl m hm
    rcases List.mem_append.mp hm with h | h
    · rw [List.eq_of_mem_replicate h]; decide
    · rw [List.mem_singleton.mp h]; exact hl
  refine ⟨⟨_, _, ⟨lines 255 _ (by decide), rfl⟩, linesGive_replicate 1 255, notSkipped _ _ (by simp [Blank]) (by decide),
    Nat.le_of_eq List.length_replicate, ?_⟩,
    ⟨_, _, ⟨lines 256 _ (by decide), rfl⟩, linesGive_replicate 1 256, notSkipped _ _ (by simp [Blank]) (by decide),
      List.length_replicate⟩⟩
  rintro b ⟨before, after, comment, -, -, -, he⟩
  have := congrArg List.length he
  simp [literal] at this
  omega

end Sys2Proof.Tests
end

section
/-! The flags between two compares (spec/10_state.md R32): which steps keep the three flags and `FLV`. -/

namespace Sys2Proof.Machine

open Sys2Proof.Claims

@[simp] theorem State.jumpTo_flags (s : State) (q : Reg) : (s.jumpTo q).flags = s.flags := rfl
@[simp] theorem State.jumpTo_flv (s : State) (q : Reg) : (s.jumpTo q).flv = s.flv := rfl

/-- The opcode byte of a fetched instruction stands at `pc` (R92). -/
theorem atOpcode_of_fetch {s : State} {i : Instr} (h : fetch s = .ok i) : AtOpcode s i.opcode :=
  decodeAt_opcode h

/-- An abort keeps the flags (R151). -/
theorem State.raise_sameFlags (s : State) (c : Cause) (ir : Option Byte) (addr : Option Nat) :
    SameFlags s (s.raise c ir addr) := ⟨rfl, rfl⟩

/-- No instruction but CMP writes the flags when it completes (R30, R32). -/
theorem Completes.sameFlags {i : Instr} {s t : State} (h : Completes i s t) (hi : i.opcode ≠ 0xA7) :
    SameFlags s t := by
  unfold SameFlags
  cases i with
  | cmp a b => exact absurd rfl hi
  | ldi r v | prn r | jmp r => obtain ⟨q, -, rfl⟩ := h; simp
  | push r | pop r => obtain ⟨q, -, -, rfl⟩ := h; simp
  | jeq r | jne r => obtain ⟨q, -, -, rfl⟩ := h; cases s.flags.equal <;> simp
  | mul a b => obtain ⟨qa, qb, -, -, -, rfl⟩ := h; simp
  | st a b => obtain ⟨qa, qb, -, -, rfl⟩ := h; simp
  | hlt => cases h; simp
  | unrecognised b => cases h; simp

end Sys2Proof.Machine

namespace Sys2Proof.Claims

open Sys2Proof.Machine

/-- Settles O26: a step stays, aborts or completes an instruction, and of these only a completed CMP writes flags. -/
theorem flagsKeptUntilNextCompare : Obligations.FlagsKeptUntilNextCompare := by
  intro s t hstep hcmp
  obtain ⟨-, rfl⟩ | ⟨-, e, -, rfl⟩ | ⟨-, i, hfetch, hdone | ⟨c, rfl, -⟩ | ⟨rfl, -⟩⟩ := step_cases hstep
  · exact ⟨rfl, rfl⟩
  · exact s.raise_sameFlags _ _ _
  · exact hdone.sameFlags fun hop => hcmp (hop ▸ atOpcode_of_fetch hfetch)
  · exact s.raise_sameFlags _ _ _
  · exact s.raise_sameFlags _ _ _

end Sys2Proof.Claims
end

section
/-! The memory primitives (spec/20_memory.md R53, R54): what each gives on both sides of the bound, and the frame of a
write of one cell. -/

namespace Sys2Proof.Machine

open Sys2Proof.Claims

/-- `MemWrite` outside the 256 cells. -/
theorem memWrite_of_le {m : Memory} {a : Nat} {v : Byte} (h : 256 ≤ a) : memWrite m a v = none := by
  simp [memWrite, Config.memSize, Nat.not_lt.mpr h]

/-- What `MemRead` gives after one cell inside memory was written. -/
theorem memRead_poke {m : Memory} {a : Nat} {v : Byte} (hm : m.wf = true) (h : a < 256) (b : Nat) :
    memRead (m.poke a v) b = if b = a then some v else memRead m b := by
  rcases Nat.lt_or_ge b 256 with hb | hb
  · simp only [memRead_of_lt hb, Memory.peek_poke hm, apply_ite some]
  · have hne : b ≠ a := by omega
    simp only [memRead_of_le hb, hne, if_false]

variable (s : State) (ir : Byte)

/-- A data read outside memory raises `MemoryBounds` with the address (R53). -/
theorem State.loadByte_of_le {a : Nat} (h : 256 ≤ a) (k : Byte → Result) :
    s.loadByte ir a k = .next (s.raise .memoryBounds (some ir) (some a)) := by
  simp [State.loadByte, memRead_of_le h]

/-- A data write outside memory raises `MemoryBounds` with the address (R54). -/
theorem State.storeByte_of_le {a : Nat} (h : 256 ≤ a) (v : Byte) (k : State → Result) :
    s.storeByte ir a v k = .next (s.raise .memoryBounds (some ir) (some a)) := by
  simp [State.storeByte, memWrite_of_le h]

/-- The cell written reads as the value. -/
theorem State.memRead_setMem_poke_self {a : Nat} (hm : s.mem.wf = true) (h : a < 256) (v : Byte) :
    memRead (s.setMem (s.mem.poke a v)).mem a = some v := by
  simp [memRead_poke hm h]

/-- Every other cell reads as before. -/
theorem State.setMem_poke_sameMemBut {a : Nat} (hm : s.mem.wf = true) (h : a < 256) (v : Byte) :
    SameMemBut a s (s.setMem (s.mem.poke a v)) := by
  intro b hb
  simp [memRead_poke hm h, hb]

end Sys2Proof.Machine

namespace Sys2Proof.Claims

open Sys2Proof.Machine

/-- Settles O46: the two sides of the bound at 255, one law of the read primitive for each. -/
theorem memReadIsBoundsChecked : Obligations.MemReadIsBoundsChecked := by
  intro s ir a k
  constructor
  · intro h
    have ha : a < 256 := Nat.lt_succ_of_le h
    exact ⟨memRead_of_lt ha, s.loadByte_of_lt ir ha k⟩
  · intro h
    exact ⟨memRead_of_le h, s.loadByte_of_le ir h k⟩

/-- Settles O47: inside memory the write goes on with the cell poked, which only memory sees; outside it raises. -/
theorem memWriteChangesOneCell : Obligations.MemWriteChangesOneCell := by
  intro s ir a v k hm
  constructor
  · intro h
    have ha : a < 256 := Nat.lt_succ_of_le h
    have sameRegs : SameRegs s (s.setMem (s.mem.poke a v)) := s.setMem_reg _
    exact ⟨s.setMem (s.mem.poke a v), s.storeByte_of_lt ir ha v k, s.memRead_setMem_poke_self hm ha v,
      s.setMem_poke_sameMemBut hm ha v, sameRegs, s.setMem_pc _, ⟨s.setMem_flags _, s.setMem_flv _⟩,
      ⟨s.setMem_status _, s.setMem_fault _⟩, s.setMem_events _⟩
  · intro h
    exact ⟨memWrite_of_le h, s.storeByte_of_le ir h v k⟩

end Sys2Proof.Claims
end

section
/-! The opcode map read through `decode` (spec/30_encoding.md R71, R72, R76): one law per format, whatever bytes
follow, and the default arm. -/

namespace Sys2Proof

variable {ir : Byte} (rest : List Byte)

/-- Format Z, and the default arm: the opcode byte is the whole instruction. -/
theorem decode_of_z {i : Instr} (h : decodeOpcode ir = .z i) : decode (ir :: rest) = .ok i := by
  simp [decode, decodeAt, h]

/-- Format R: one operand byte follows. -/
theorem decode_of_r {mk : Byte → Instr} (h : decodeOpcode ir = .r mk) (o1 : Byte) :
    decode (ir :: o1 :: rest) = .ok (mk o1) := by
  simp [decode, decodeAt, h]

/-- Format RR: two operand bytes follow, in address order. -/
theorem decode_of_rr {mk : Byte → Byte → Instr} (h : decodeOpcode ir = .rr mk) (o1 o2 : Byte) :
    decode (ir :: o1 :: o2 :: rest) = .ok (mk o1 o2) := by
  simp [decode, decodeAt, h]

/-- Format RI: a register byte and an immediate byte follow, in address order. -/
theorem decode_of_ri {mk : Byte → Byte → Instr} (h : decodeOpcode ir = .ri mk) (o1 o2 : Byte) :
    decode (ir :: o1 :: o2 :: rest) = .ok (mk o1 o2) := by
  simp [decode, decodeAt, h]

/-- A byte outside the map has length 1 (R76). -/
theorem opcodeLength_unrecognised (h : opcodeBytes.contains ir = false) : opcodeLength ir = 1 := by
  simp [opcodeLength, decodeOpcode_unrecognised h, Form.operands]

end Sys2Proof

namespace Sys2Proof.Claims

/-- Settles O11: each opcode byte selects its format in the opcode map, and the law of that format decodes it; a byte
outside the map takes the default arm. -/
theorem opcodeMapAndLengths : Obligations.OpcodeMapAndLengths := by
  refine ⟨fun o1 o2 => ?_, by decide, by decide, by decide, fun b hb => ?_⟩
  · exact ⟨decode_of_ri [] rfl o1 o2, decode_of_r [] rfl o1, decode_of_rr [] rfl o1 o2, decode_of_rr [] rfl o1 o2,
      decode_of_r [] rfl o1, decode_of_r [] rfl o1, decode_of_rr [] rfl o1 o2, decode_of_r [] rfl o1,
      decode_of_r [] rfl o1, decode_of_r [] rfl o1, decode_of_z [] rfl⟩
  · have hout : opcodeBytes.contains b = false := by simpa [opcodeBytes] using hb
    exact ⟨decode_of_z [] (decodeOpcode_unrecognised hout), opcodeLength_unrecognised hout⟩

end Sys2Proof.Claims
end

section
/-! What one running step can come to, and which instruction was fetched (spec/40_fetch_decode_execute.md R91 to R94,
R99): the fetch read by format, that a fetched instruction is encodable, and what a completed one does to `status` and
to `pc`. -/

namespace Sys2Proof

/-- Every instruction a format builds is encodable. -/
def Form.buildsEncodable : Form → Prop
  | .z i => i.encodable = true
  | .r mk => ∀ o1, (mk o1).encodable = true
  | .rr mk => ∀ o1 o2, (mk o1 o2).encodable = true
  | .ri mk => ∀ o1 o2, (mk o1 o2).encodable = true

/-- The eleven rows of the opcode map build encodable instructions. -/
theorem opcodeBytes_buildsEncodable : ∀ ir ∈ opcodeBytes, (decodeOpcode ir).buildsEncodable := by
  simp [opcodeBytes, decodeOpcode_eq, Form.buildsEncodable, Instr.encodable]

/-- So does the opcode map as a whole: the default arm is taken only outside the eleven opcodes (R77). -/
theorem decodeOpcode_buildsEncodable (ir : Byte) : (decodeOpcode ir).buildsEncodable := by
  by_cases hin : ir ∈ opcodeBytes
  · exact opcodeBytes_buildsEncodable ir hin
  · have hout : opcodeBytes.contains ir = false := by simpa using hin
    rw [decodeOpcode_unrecognised hout]
    simp [Form.buildsEncodable, Instr.encodable, hin]

/-- Everything a successful read of an instruction can have been: one case per format, with the operand bytes it read
(R92 to R94). -/
theorem decodeAt_ok_cases {read : Nat → Option Byte} {a : Nat} {i : Instr} (h : decodeAt read a = .ok i) :
    ∃ ir, read a = some ir ∧
      (decodeOpcode ir = .z i ∨
        (∃ mk o1, decodeOpcode ir = .r mk ∧ read (a + 1) = some o1 ∧ i = mk o1) ∨
        ∃ mk o1 o2, (decodeOpcode ir = .rr mk ∨ decodeOpcode ir = .ri mk) ∧
          read (a + 1) = some o1 ∧ read (a + 2) = some o2 ∧ i = mk o1 o2) := by
  unfold decodeAt at h
  split at h
  · cases h
  · rename_i ir hir
    refine ⟨ir, hir, ?_⟩
    split at h <;> rename_i hf <;> repeat' split at h
    all_goals cases h
    · exact .inl hf
    · exact .inr (.inl ⟨_, _, hf, ‹_›, rfl⟩)
    · exact .inr (.inr ⟨_, _, _, .inl hf, ‹_›, ‹_›, rfl⟩)
    · exact .inr (.inr ⟨_, _, _, .inr hf, ‹_›, ‹_›, rfl⟩)

/-- An instruction that was read is encodable. -/
theorem decodeAt_encodable {read : Nat → Option Byte} {a : Nat} {i : Instr} (h : decodeAt read a = .ok i) :
    i.encodable = true := by
  obtain ⟨ir, -, hcases⟩ := decodeAt_ok_cases h
  have henc := decodeOpcode_buildsEncodable ir
  obtain hf | ⟨mk, o1, hf, -, rfl⟩ | ⟨mk, o1, o2, hf | hf, -, -, rfl⟩ := hcases <;> rw [hf] at henc
  · exact henc
  · exact henc o1
  · exact henc o1 o2
  · exact henc o1 o2

end Sys2Proof

namespace Sys2Proof.Machine

open Sys2Proof.Claims

variable {s t : State} {ir : Byte} {i : Instr}

/-- An opcode of format Z is fetched whole. -/
theorem fetch_of_z (hop : AtOpcode s ir) (hf : decodeOpcode ir = .z i) : fetch s = .ok i := by
  simp only [fetch, decodeAt, show memRead s.mem s.pc = some ir from hop, hf]

/-- An opcode of format R is fetched with the byte that follows it. -/
theorem fetch_of_r {mk : Byte → Instr} {o : Byte} (hop : AtOpcode s ir) (hf : decodeOpcode ir = .r mk)
    (ho : memRead s.mem (s.pc + 1) = some o) : fetch s = .ok (mk o) := by
  simp only [fetch, decodeAt, show memRead s.mem s.pc = some ir from hop, hf, ho]

/-- What was fetched at an opcode of format R has the byte that follows as its operand. -/
theorem fetch_ok_of_r {mk : Byte → Instr} (hop : AtOpcode s ir) (hf : decodeOpcode ir = .r mk) (h : fetch s = .ok i) :
    ∃ o, memRead s.mem (s.pc + 1) = some o ∧ i = mk o := by
  cases ho : memRead s.mem (s.pc + 1) with
  | none => simp [fetch, decodeAt, show memRead s.mem s.pc = some ir from hop, hf, ho] at h
  | some o => exact ⟨o, rfl, Except.ok.inj (h.symm.trans (fetch_of_r hop hf ho))⟩

/-- A running step completes the fetched instruction where that can complete. -/
theorem step_of_completes (hr : s.status = .running) (hfetch : fetch s = .ok i) (h : Completes i s t) :
    step s = .next t := by
  simp only [step, hr, if_true, hfetch, exec_of_completes h]

/-- A running step aborts or completes the fetched instruction (R96). -/
theorem step_aborts_or_completes (hr : s.status = .running) (h : step s = .next t) :
    (∃ c ir addr, t = s.raise c ir addr) ∨ ∃ i, fetch s = .ok i ∧ Completes i s t := by
  obtain ⟨hn, -⟩ | ⟨-, e, -, he⟩ | ⟨-, i, hfetch, hdone | ⟨c, hc, -⟩ | ⟨hl, -⟩⟩ := step_cases h
  · exact absurd hr hn
  · exact .inl ⟨_, _, _, he⟩
  · exact .inr ⟨i, hfetch, hdone⟩
  · exact .inl ⟨_, _, _, hc⟩
  · exact .inl ⟨_, _, _, hl⟩

/-- No instruction but HLT writes the status when it completes (R91). -/
theorem Completes.status (h : Completes i s t) (hi : i ≠ .hlt) : t.status = s.status := by
  cases i with
  | hlt => exact absurd rfl hi
  | ldi r v | prn r => obtain ⟨q, -, rfl⟩ := h; simp
  | jmp r => obtain ⟨q, -, rfl⟩ := h; rfl
  | push r | pop r => obtain ⟨q, -, -, rfl⟩ := h; simp
  | jeq r | jne r => obtain ⟨q, -, -, rfl⟩ := h; cases s.flags.equal <;> rfl
  | mul a b => obtain ⟨qa, qb, -, -, -, rfl⟩ := h; simp
  | cmp a b | st a b => obtain ⟨qa, qb, -, -, rfl⟩ := h; simp
  | unrecognised b => cases h; simp

/-- The default advance, over the instruction's length: every instruction but the three jumps and HLT (R99). -/
theorem Completes.pc_add_length (h : Completes i s t) (henc : i.encodable = true)
    (hi : i.opcode ∉ [0x54, 0x55, 0x56, 0x01]) : t.pc = s.pc + opcodeLength i.opcode := by
  cases i with
  | jmp r | jeq r | jne r | hlt => simp [Instr.opcode] at hi
  | ldi r v | prn r => obtain ⟨q, -, rfl⟩ := h; rfl
  | push r | pop r => obtain ⟨q, -, -, rfl⟩ := h; rfl
  | mul a b => obtain ⟨qa, qb, -, -, -, rfl⟩ := h; rfl
  | cmp a b | st a b => obtain ⟨qa, qb, -, -, rfl⟩ := h; rfl
  | unrecognised b =>
    have hout : opcodeBytes.contains b = false := by simpa only [Instr.encodable, Bool.not_eq_true'] using henc
    cases h
    simp only [State.advance_pc, State.emit_pc, Instr.opcode, opcodeLength_unrecognised hout]

/-- A running step at an HLT byte halts, and does nothing else (R142). -/
theorem step_hlt (hr : s.status = .running) (hop : AtOpcode s 0x01) : step s = .next { s with status := .halted } :=
  step_of_completes hr (fetch_of_z hop rfl) rfl

/-- A running JMP goes to the address its register holds (R130). -/
theorem step_jmp {q : Reg} (hr : s.status = .running) (hop : AtOpcode s 0x54) (hq : OperandAt s (s.pc + 1) q) :
    step s = .next (s.jumpTo q) := by
  obtain ⟨o, ho, hreg⟩ := hq
  exact step_of_completes hr (fetch_of_r hop rfl ho) ⟨q, hreg, rfl⟩

/-- A jump to the machine's own address changes nothing. -/
theorem State.jumpTo_self {q : Reg} (h : (s.reg q).toNat = s.pc) : s.jumpTo q = s := by
  rw [State.jumpTo, h]
  rfl

end Sys2Proof.Machine

namespace Sys2Proof.Claims

open Sys2Proof.Machine

/-- Where a running step leaves the status (R91). -/
theorem runningStep_status {s t : State} (hr : s.status = .running) (h : step s = .next t) :
    (t.status = .running ∨ t.status = .halted ∨ t.status = .aborted) ∧
    (t.status = .halted ↔ AtOpcode s 0x01) ∧
    (t.status = .aborted ↔ ∃ c ir addr, t = s.raise c ir addr) := by
  have halts : AtOpcode s 0x01 → t.status = .halted := fun hop => by cases (step_hlt hr hop).symm.trans h; rfl
  have aborts : (∃ c ir addr, t = s.raise c ir addr) → t.status = .aborted := by rintro ⟨c, ir, addr, rfl⟩; rfl
  obtain hraise | ⟨i, hfetch, hdone⟩ := step_aborts_or_completes hr h
  · have ht := aborts hraise
    exact ⟨.inr (.inr ht), ⟨fun h' => by simp [ht] at h', halts⟩, fun _ => hraise, aborts⟩
  · by_cases hi : i = .hlt
    · subst hi
      have hop : AtOpcode s 0x01 := atOpcode_of_fetch hfetch
      have ht := halts hop
      exact ⟨.inr (.inl ht), ⟨fun _ => hop, halts⟩, fun h' => by simp [ht] at h', aborts⟩
    · have ht : t.status = .running := (hdone.status hi).trans hr
      exact ⟨.inl ht, ⟨fun h' => by simp [ht] at h', halts⟩, fun h' => by simp [ht] at h', aborts⟩

/-- Settles O24: a running step raises, halts at HLT, or completes an instruction that keeps the status; outside
Running it stays; and a JMP whose register holds its own address goes back to the very state. -/
theorem statusTransitions : Obligations.StatusTransitions := by
  have selfJump : ∀ (s : State) (q : Reg), s.status = .running → AtOpcode s 0x54 → OperandAt s (s.pc + 1) q →
      (s.reg q).toNat = s.pc → step s = .next s := fun s q hr hop hq hpc => by
    rw [step_jmp hr hop hq, State.jumpTo_self hpc]
  refine ⟨fun s t h => ⟨fun hr => runningStep_status hr h, fun hend => ?_⟩, selfJump, ?_⟩
  · obtain ⟨-, rfl⟩ | ⟨hr, -⟩ | ⟨hr, -⟩ := step_cases h
    · rfl
    · simp [State.Ended, hr] at hend
    · simp [State.Ended, hr] at hend
  · exact ⟨State.reset.placeAtPc [0x54, 0], rfl, rfl, selfJump _ 0 rfl rfl ⟨0, rfl, rfl⟩ rfl⟩

/-- Settles O25: a step that does not abort completes the instruction fetched at `pc`, which advances by its length,
jumps through its operand register, or halts in place. -/
theorem programCounterUpdate : Obligations.ProgramCounterUpdate := by
  intro s t hr hstep hna
  obtain ⟨c, ir, addr, rfl⟩ | ⟨i, hfetch, hdone⟩ := step_aborts_or_completes hr hstep
  · exact absurd rfl hna
  have advances : ∀ (n : Nat) (ops : List Byte), (∀ ir ∈ ops, ir ∉ [0x54, 0x55, 0x56, 0x01] ∧ opcodeLength ir = n) →
      ∀ ir ∈ ops, AtOpcode s ir → t.pc = s.pc + n := by
    intro n ops hops ir hir hop
    obtain ⟨hseq, rfl⟩ := hops ir hir
    obtain rfl : i.opcode = ir := Option.some.inj ((atOpcode_of_fetch hfetch).symm.trans hop)
    exact hdone.pc_add_length (decodeAt_encodable hfetch) hseq
  refine ⟨advances 3 _ (by decide), advances 2 _ (by decide), fun hop => ?_, fun hop => ?_, fun hop => ?_, fun hop => ?_⟩
  · obtain ⟨o, ho, rfl⟩ := fetch_ok_of_r hop rfl hfetch
    obtain ⟨q, hq, rfl⟩ := hdone
    exact ⟨q, ⟨o, ho, hq⟩, rfl⟩
  · obtain ⟨o, ho, rfl⟩ := fetch_ok_of_r hop rfl hfetch
    obtain ⟨q, hq, -, rfl⟩ := hdone
    exact ⟨q, ⟨o, ho, hq⟩, apply_ite State.pc _ _ _⟩
  · obtain ⟨o, ho, rfl⟩ := fetch_ok_of_r hop rfl hfetch
    obtain ⟨q, hq, -, rfl⟩ := hdone
    exact ⟨q, ⟨o, ho, hq⟩, apply_ite State.pc _ _ _⟩
  · cases (step_hlt hr hop).symm.trans hstep
    rfl

end Sys2Proof.Claims
end

section
/-! What the ALU depends on and what it writes (spec/42_alu.md R126, section 3): its part of the state is the register
file, the flags and `FLV`, and it commutes with putting that part into any other state. -/

namespace Sys2Proof.Machine

open Sys2Proof.Claims

/-- `s` with the ALU's part of the state, the register file, the flags and `FLV`, taken from `t` (R126). -/
def State.withAluPart (s t : State) : State := { s with regs := t.regs, flags := t.flags, flv := t.flv }

/-- Putting in a part that already stands there changes nothing. -/
theorem State.withAluPart_eq_self {s t : State} (hregs : s.regs = t.regs) (hflags : s.flags = t.flags)
    (hflv : s.flv = t.flv) : s.withAluPart t = s := by
  rw [State.withAluPart, ← hregs, ← hflags, ← hflv]

/-- The write of a result sees and changes nothing outside the ALU's part. -/
theorem State.aluWrite_withAluPart (s t : State) (a : Reg) (n : Nat) :
    (s.withAluPart t).aluWrite a n = (t.aluWrite a n).map s.withAluPart := by
  unfold State.aluWrite
  split
  · rfl
  · rfl

/-- No operation of the ALU sees or changes anything outside its part (R126). -/
theorem alu_withAluPart (op : AluOp) (a b : Reg) (s t : State) :
    alu op a b (s.withAluPart t) = (alu op a b t).map s.withAluPart := by
  cases op with
  | mul | add => exact s.aluWrite_withAluPart t a _
  | cmp | other name => rfl

/-- A completed write of a result changes register `a` alone, and no flag (R121, R123). -/
theorem State.aluWrite_footprint {s t : State} {a : Reg} {n : Nat} (h : s.aluWrite a n = .ok t) :
    SameRegsBut a s t ∧ SameFlags s t := by
  obtain ⟨-, e⟩ | ⟨-, e⟩ := s.aluWrite_cases a n
  · cases e.symm.trans h
  · cases e.symm.trans h
    exact ⟨fun p hp => s.reg_setReg_ne hp _, rfl, rfl⟩

end Sys2Proof.Machine

namespace Sys2Proof.Claims

open Sys2Proof.Machine

/-- Settles O48: the ALU commutes with putting its part into another state; MUL and ADD are a write of a result; CMP
is a write of the flags, computed from two registers. -/
theorem aluFootprint : Obligations.AluFootprint := by
  refine ⟨fun op a b s s' hregs hflags hflv => ?_, fun op hop a b s t h => ?_, fun a b s => ?_⟩
  · have hself : s'.withAluPart s = s' := State.withAluPart_eq_self hregs hflags hflv
    have hcommutes := alu_withAluPart op a b s' s
    rwa [hself] at hcommutes
  · obtain rfl | rfl : op = .mul ∨ op = .add := by simpa using hop
    · exact State.aluWrite_footprint h
    · exact State.aluWrite_footprint h
  · exact ⟨_, rfl, s.setFlags_reg _, rfl, fun f v => ⟨_, rfl, rfl⟩⟩

end Sys2Proof.Claims
end

section
/-! The encoding of an instruction against what the decoder reads (spec/30_encoding.md R70 to R76, R83): reading an
instruction succeeds exactly where its encoding stands. -/

namespace Sys2Proof

variable {read : Nat → Option Byte} {a : Nat} {ir : Byte} {i : Instr}

/-- Every instruction a format builds is encoded as the opcode byte `ir` and the operand bytes, in address order. -/
def Form.encodesAs (ir : Byte) : Form → Prop
  | .z i => encode i = [ir]
  | .r mk => ∀ o1, encode (mk o1) = [ir, o1]
  | .rr mk => ∀ o1 o2, encode (mk o1 o2) = [ir, o1, o2]
  | .ri mk => ∀ o1 o2, encode (mk o1 o2) = [ir, o1, o2]

/-- Every format of the opcode map builds instructions so encoded. -/
theorem decodeOpcode_encodesAs (ir : Byte) : (decodeOpcode ir).encodesAs ir := by
  have rows : ∀ ir ∈ opcodeBytes, (decodeOpcode ir).encodesAs ir := by
    simp [opcodeBytes, decodeOpcode_eq, Form.encodesAs, encode]
  by_cases hin : ir ∈ opcodeBytes
  · exact rows ir hin
  · rw [decodeOpcode_unrecognised (by simpa using hin)]
    rfl

/-- The bytes from address `a` on are `bytes`. -/
def ReadsAt (read : Nat → Option Byte) (a : Nat) (bytes : List Byte) : Prop :=
  ∀ (k : Nat) (h : k < bytes.length), read (a + k) = some bytes[k]

theorem readsAt_nil : ReadsAt read a [] := fun _ h => absurd h (Nat.not_lt_zero _)

theorem readsAt_cons {b : Byte} {bytes : List Byte} :
    ReadsAt read a (b :: bytes) ↔ read a = some b ∧ ReadsAt read (a + 1) bytes := by
  refine ⟨fun h => ⟨h 0 (Nat.zero_lt_succ _), fun k hk => ?_⟩, fun ⟨h0, h⟩ k hk => ?_⟩
  · rw [Nat.add_assoc, Nat.add_comm 1]
    exact h (k + 1) (Nat.succ_lt_succ hk)
  · cases k with
    | zero => exact h0
    | succ k =>
      rw [← Nat.add_assoc, Nat.add_right_comm]
      exact h k (Nat.lt_of_succ_lt_succ hk)

/-- An instruction that was read stands encoded where it was read (R92 to R94). -/
theorem readsAt_of_decodeAt (h : decodeAt read a = .ok i) : ReadsAt read a (encode i) := by
  obtain ⟨ir, hir, hcases⟩ := decodeAt_ok_cases h
  have henc := decodeOpcode_encodesAs ir
  obtain hf | ⟨mk, o1, hf, h1, rfl⟩ | ⟨mk, o1, o2, hf | hf, h1, h2, rfl⟩ := hcases <;> rw [hf] at henc
  · rw [show encode i = [ir] from henc, readsAt_cons]
    exact ⟨hir, readsAt_nil⟩
  · rw [show encode (mk o1) = [ir, o1] from henc o1, readsAt_cons, readsAt_cons]
    exact ⟨hir, h1, readsAt_nil⟩
  all_goals
    rw [show encode (mk o1 o2) = [ir, o1, o2] from henc o1 o2, readsAt_cons, readsAt_cons, readsAt_cons]
    exact ⟨hir, h1, h2, readsAt_nil⟩

/-- Where the encoding of an encodable instruction stands, that instruction is read (R73: the opcode byte alone selects
it; R83: no byte after it is looked at). -/
theorem decodeAt_of_readsAt (henc : i.encodable = true) (h : ReadsAt read a (encode i)) :
    decodeAt read a = .ok i := by
  cases i with
  | hlt =>
    simp only [encode, readsAt_cons] at h
    simp [decodeAt, decodeOpcode_eq, h]
  | unrecognised b =>
    have hout : opcodeBytes.contains b = false := by simpa only [Instr.encodable, Bool.not_eq_true'] using henc
    simp only [encode, readsAt_cons] at h
    simp [decodeAt, decodeOpcode_unrecognised hout, h]
  | prn r | push r | pop r | jmp r | jeq r | jne r =>
    simp only [encode, readsAt_cons] at h
    simp [decodeAt, decodeOpcode_eq, h]
  | ldi x y | mul x y | cmp x y | st x y =>
    simp only [encode, readsAt_cons, Nat.add_assoc] at h
    simp [decodeAt, decodeOpcode_eq, h]

/-- Reading an instruction succeeds exactly where the encoding of an encodable instruction stands. -/
theorem decodeAt_eq_ok_iff : decodeAt read a = .ok i ↔ i.encodable = true ∧ ReadsAt read a (encode i) :=
  ⟨fun h => ⟨decodeAt_encodable h, readsAt_of_decodeAt h⟩, fun ⟨henc, h⟩ => decodeAt_of_readsAt henc h⟩

/-- On a list of bytes: the list begins with the encoding. -/
theorem decode_eq_ok_iff {bytes : List Byte} :
    decode bytes = .ok i ↔ i.encodable = true ∧ encode i <+: bytes := by
  rw [decode, decodeAt_eq_ok_iff, List.prefix_iff_getElem?]
  simp only [ReadsAt, Nat.zero_add]

end Sys2Proof

namespace Sys2Proof.Claims

open Sys2Proof.Machine

/-- Settles O12: the encoding stands at the head of the list. -/
theorem decodeOfEncode : Obligations.DecodeOfEncode :=
  fun _ rest henc => decode_eq_ok_iff.mpr ⟨henc, rest, rfl⟩

/-- Settles O13: the other direction of the same law. -/
theorem encodeOfDecode : Obligations.EncodeOfDecode :=
  fun _ _ h => decode_eq_ok_iff.mp h

/-- Settles O14: each word begins with the encoding of its instruction. -/
theorem specWordsDecode : Obligations.SpecWordsDecode := by
  unfold Obligations.SpecWordsDecode
  decide

end Sys2Proof.Claims
end

section
/-! The fetch of a running step and the ways it aborts (spec/40_fetch_decode_execute.md R90 to R96;
spec/60_exceptions.md R151 to R156): which fetches fail, what an abort is, and which cause it has. -/

namespace Sys2Proof.Machine

open Sys2Proof.Claims

variable {s t : State} {ir : Byte} {i : Instr}

/-! ### Fetch -/

/-- The fetch at `pc` succeeds exactly where memory holds the encoding of an encodable instruction. -/
theorem fetch_eq_ok_iff :
    fetch s = .ok i ↔ i.encodable = true ∧ ReadsAt (memRead s.mem) s.pc (encode i) :=
  decodeAt_eq_ok_iff

/-- The opcode byte cannot be read past memory (R92). -/
theorem fetch_of_pc_ge (h : 256 ≤ s.pc) : fetch s = .error (.noOpcode s.pc) := by
  simp [fetch, decodeAt, memRead_of_le h]

/-- A byte that is read lies inside memory. -/
theorem lt_of_memRead {m : Memory} {a : Nat} {v : Byte} (h : memRead m a = some v) : a < 256 := by
  by_contra hge
  rw [memRead_of_le (Nat.not_lt.mp hge)] at h
  cases h

/-- An instruction that reaches past memory is not fetched: the first byte missing is that at 256 (R94). -/
theorem fetch_of_reaches_past (hop : AtOpcode s ir) (h : 256 < s.pc + opcodeLength ir) :
    ∃ e, fetch s = .error e ∧ e.ir = some ir ∧ e.addr = 256 := by
  have hpc := lt_of_memRead hop
  rcases (show s.pc = 255 ∨ s.pc + 2 ≤ 256 by omega) with h255 | h2
  · have h1 : memRead s.mem (s.pc + 1) = none := memRead_of_le (by omega)
    cases hf : decodeOpcode ir with
    | z i => simp only [opcodeLength, hf, Form.operands] at h; omega
    | r mk | rr mk | ri mk =>
      exact ⟨.noFirstOperand ir (s.pc + 1),
        by simp [fetch, decodeAt, show memRead s.mem s.pc = some ir from hop, hf, h1], rfl,
        by simp [DecodeError.addr, h255]⟩
  · have h1 := memRead_of_lt (m := s.mem) (a := s.pc + 1) (by omega)
    cases hf : decodeOpcode ir with
    | z i | r mk => simp only [opcodeLength, hf, Form.operands] at h; omega
    | rr mk | ri mk =>
      simp only [opcodeLength, hf, Form.operands] at h
      have h254 : s.pc + 2 = 256 := by omega
      have h2 : memRead s.mem (s.pc + 2) = none := memRead_of_le (Nat.le_of_eq h254.symm)
      exact ⟨.noSecondOperand ir (s.pc + 2),
        by simp [fetch, decodeAt, show memRead s.mem s.pc = some ir from hop, hf, h1, h2], rfl, h254⟩

/-- An instruction that fits into memory is fetched. -/
theorem fetch_of_fits (hop : AtOpcode s ir) (h : s.pc + opcodeLength ir ≤ 256) : ∃ i, fetch s = .ok i := by
  cases hf : decodeOpcode ir with
  | z i => exact ⟨i, fetch_of_z hop hf⟩
  | r mk =>
    simp only [opcodeLength, hf, Form.operands] at h
    exact ⟨_, fetch_of_r hop hf (memRead_of_lt (by omega))⟩
  | rr mk | ri mk =>
    simp only [opcodeLength, hf, Form.operands] at h
    have h1 := memRead_of_lt (m := s.mem) (a := s.pc + 1) (by omega)
    have h2 := memRead_of_lt (m := s.mem) (a := s.pc + 2) (by omega)
    exact ⟨mk (s.mem.peek (s.pc + 1)) (s.mem.peek (s.pc + 2)), by
      simp only [fetch, decodeAt, show memRead s.mem s.pc = some ir from hop, hf, h1, h2]⟩

/-- When no instruction is fetched (R92, R94). -/
theorem fetch_fails_iff :
    (∃ e, fetch s = .error e) ↔ 256 ≤ s.pc ∨ ∃ ir, AtOpcode s ir ∧ 256 < s.pc + opcodeLength ir := by
  constructor
  · rintro ⟨e, he⟩
    by_contra hfits
    simp only [not_or, not_exists, not_and, not_le, not_lt] at hfits
    have hop : AtOpcode s (s.mem.peek s.pc) := memRead_of_lt hfits.1
    obtain ⟨i, hi⟩ := fetch_of_fits hop (hfits.2 _ hop)
    cases he.symm.trans hi
  · rintro (hpc | ⟨ir, hop, hlen⟩)
    · exact ⟨_, fetch_of_pc_ge hpc⟩
    · obtain ⟨e, he, -⟩ := fetch_of_reaches_past hop hlen
      exact ⟨e, he⟩

/-- The fetched instruction fits into memory. -/
theorem fits_of_fetch (h : fetch s = .ok i) : s.pc + opcodeLength i.opcode ≤ 256 := by
  by_contra hlen
  obtain ⟨e, he, -⟩ := fetch_of_reaches_past (atOpcode_of_fetch h) (Nat.not_le.mp hlen)
  cases he.symm.trans h

/-! ### The outcome of a step, from the fetch -/

/-- A step outside Running changes nothing (R101). -/
theorem step_of_not_running (h : s.status ≠ .running) : step s = .next s := if_neg h

/-- A running step executes the instruction it fetches (R90). -/
theorem step_of_fetch_ok (hr : s.status = .running) (h : fetch s = .ok i) : step s = exec i s := by
  simp only [step, hr, if_true, h]

/-- A running step that fetches no instruction raises `MemoryBounds` (R92, R94). -/
theorem step_of_fetch_error {e : DecodeError} (hr : s.status = .running) (h : fetch s = .error e) :
    step s = .next (s.raise .memoryBounds e.ir (some e.addr)) := by
  simp only [step, hr, if_true, h, State.fetchFault]

/-- Whatever an instruction does, it answers a next state. -/
theorem exec_answers (i : Instr) (s : State) : ∃ t, exec i s = .next t := by
  obtain ⟨t, e, -⟩ | ⟨c, e, -⟩ | ⟨e, -⟩ := exec_cases i s
  · exact ⟨_, e⟩
  · exact ⟨_, e⟩
  · exact ⟨_, e⟩

/-- A step stays where the machine does not run, raises, or completes the fetched instruction. -/
theorem step_stays_raises_or_completes (h : step s = .next t) :
    t = s ∨ (s.status = .running ∧ ∃ c ir addr, t = s.raise c ir addr) ∨
      (s.status = .running ∧ ∃ i, fetch s = .ok i ∧ Completes i s t) := by
  by_cases hr : s.status = .running
  · exact .inr ((step_aborts_or_completes hr h).imp (⟨hr, ·⟩) (⟨hr, ·⟩))
  · rw [step_of_not_running hr] at h
    cases h
    exact .inl rfl

/-! ### Aborts -/

/-- `raise` writes the status, the record and one event, and nothing else (R151). -/
theorem State.raise_abortedBy (s : State) (c : Cause) (ir : Option Byte) (addr : Option Nat) :
    AbortedBy s (s.raise c ir addr) c ir addr :=
  ⟨rfl, rfl, rfl, fun _ => rfl, fun _ => rfl, ⟨rfl, rfl⟩, rfl⟩

theorem aborts_of_eq_raise {res : Result} {c : Cause} {ir : Option Byte} {addr : Option Nat}
    (h : res = .next (s.raise c ir addr)) : Aborts s res c ir addr :=
  ⟨_, h, s.raise_abortedBy c ir addr⟩

/-- A step that reaches past memory aborts at address 256 (R94). -/
theorem step_aborts_of_reaches_past (hr : s.status = .running) (hop : AtOpcode s ir)
    (h : 256 < s.pc + opcodeLength ir) : Aborts s (step s) .memoryBounds (some ir) (some 256) := by
  obtain ⟨e, he, hir, haddr⟩ := fetch_of_reaches_past hop h
  rw [← hir, ← haddr]
  exact aborts_of_eq_raise (step_of_fetch_error hr he)

/-- An instruction with an illegal register byte aborts at the first one (R95). -/
theorem exec_aborts_of_illegal {k : Nat} (h : i.regsLegal = false) (hk : firstIllegal i = k) :
    Aborts s (exec i s) .registerIndex (some i.opcode) (some (s.pc + k)) :=
  hk ▸ aborts_of_eq_raise (exec_of_illegal h)

/-- An instruction whose own check fails aborts with its cause and no address (R96). -/
theorem exec_aborts_of_checksFail {c : Cause} (h : ChecksFail i s c) : Aborts s (exec i s) c (some i.opcode) none :=
  aborts_of_eq_raise (exec_of_checksFail h)

theorem legalReg_of_ge {o : Byte} (h : 8 ≤ o.toNat) : legalReg o = false := regOf_eq_none_legal (regOf_of_le h)

theorem legalReg_of_le {o : Byte} (h : o.toNat ≤ 7) : legalReg o = true := by simp [legalReg, h]

/-- A completed instruction is not aborted. -/
theorem Completes.status_ne_aborted (h : Completes i s t) (hs : s.status ≠ .aborted) : t.status ≠ .aborted := by
  by_cases hi : i = .hlt
  · subst hi
    cases h
    simp
  · rwa [h.status hi]

/-- When a running step aborts with the cause `c`: for want of an instruction, by the instruction's own check, or by a
register byte (R96). -/
theorem abortsWith_iff (hr : s.status = .running) (h : step s = .next t) (c : Cause) :
    (t.status = .aborted ∧ t.fault.map FaultRecord.cause = some c) ↔
      (c = .memoryBounds ∧ ∃ e, fetch s = .error e) ∨ (∃ i, fetch s = .ok i ∧ ChecksFail i s c) ∨
      (c = .registerIndex ∧ ∃ i, fetch s = .ok i ∧ i.regsLegal = false) := by
  constructor
  · rintro ⟨hst, hcause⟩
    obtain ⟨hn, -⟩ | ⟨-, e, he, rfl⟩ | ⟨-, i, hi, hdone | ⟨c', rfl, hc⟩ | ⟨rfl, hl⟩⟩ := step_cases h
    · exact absurd hr hn
    · exact .inl ⟨(Option.some.inj hcause).symm, e, he⟩
    · exact absurd hst (hdone.status_ne_aborted (by simp [hr]))
    · obtain rfl : c' = c := Option.some.inj hcause
      exact .inr (.inl ⟨i, hi, hc⟩)
    · exact .inr (.inr ⟨(Option.some.inj hcause).symm, i, hi, hl⟩)
  · rintro (⟨rfl, e, he⟩ | ⟨i, hi, hc⟩ | ⟨rfl, i, hi, hl⟩)
    · cases (step_of_fetch_error hr he).symm.trans h
      exact ⟨rfl, rfl⟩
    · cases ((step_of_fetch_ok hr hi).trans (exec_of_checksFail hc)).symm.trans h
      exact ⟨rfl, rfl⟩
    · cases ((step_of_fetch_ok hr hi).trans (exec_of_illegal hl)).symm.trans h
      exact ⟨rfl, rfl⟩

/-- The byte of a register is the one byte that selects it. -/
theorem regOf_eq_some_iff_regByte {o : Byte} {q : Reg} : regOf o = some q ↔ o = regByte q :=
  ⟨fun h => (regOf_eq_some_legal h).2, fun h => h ▸ regOf_regByte q⟩

/-- An instruction's own check never fails for want of memory, of a register or of an ALU operation. -/
theorem ChecksFail.cause {c : Cause} (h : ChecksFail i s c) : c = .stackPointerRange ∨ c = .flagsUndefined := by
  cases i with
  | mul a b => obtain ⟨_, _, _, _, _, _, rfl⟩ := h; exact .inl rfl
  | push r | pop r => obtain ⟨_, _, _, rfl⟩ := h; exact .inl rfl
  | jeq r | jne r => obtain ⟨_, _, _, rfl⟩ := h; exact .inr rfl
  | ldi _ _ | prn _ | cmp _ _ | st _ _ | jmp _ | hlt | unrecognised _ => exact h.elim

/-- JEQ and JNE check `FLV` (R131, R132). -/
theorem checksFail_flagsUndefined_iff :
    ChecksFail i s .flagsUndefined ↔ ∃ q, s.flv = false ∧ (i = .jeq (regByte q) ∨ i = .jne (regByte q)) := by
  constructor
  · intro h
    cases i with
    | jeq r => obtain ⟨q, hq, hflv, -⟩ := h; exact ⟨q, hflv, .inl (by rw [regOf_eq_some_iff_regByte.mp hq])⟩
    | jne r => obtain ⟨q, hq, hflv, -⟩ := h; exact ⟨q, hflv, .inr (by rw [regOf_eq_some_iff_regByte.mp hq])⟩
    | mul a b => obtain ⟨_, _, _, _, _, _, hc⟩ := h; cases hc
    | push r | pop r => obtain ⟨_, _, _, hc⟩ := h; cases hc
    | ldi _ _ | prn _ | cmp _ _ | st _ _ | jmp _ | hlt | unrecognised _ => exact h.elim
  · rintro ⟨q, hflv, rfl | rfl⟩
    · exact ⟨q, regOf_regByte q, hflv, rfl⟩
    · exact ⟨q, regOf_regByte q, hflv, rfl⟩

/-- PUSH, POP and MUL into register 7 check the range of the stack pointer (R112, R113, R121). -/
theorem checksFail_stackPointerRange_iff :
    ChecksFail i s .stackPointerRange ↔
      (∃ q, i = .push (regByte q) ∧ s.sp.toNat = 0) ∨ (∃ q, i = .pop (regByte q) ∧ s.sp.toNat = 255) ∨
      (∃ q, i = .mul 7 (regByte q) ∧ s.sp.toNat * (s.reg q).toNat > 255) := by
  constructor
  · intro h
    cases i with
    | push r =>
      obtain ⟨q, hq, hsp, -⟩ := h
      exact .inl ⟨q, by rw [regOf_eq_some_iff_regByte.mp hq], by rw [hsp]; rfl⟩
    | pop r =>
      obtain ⟨q, hq, hsp, -⟩ := h
      exact .inr (.inl ⟨q, by rw [regOf_eq_some_iff_regByte.mp hq], by rw [hsp]; rfl⟩)
    | mul a b =>
      obtain ⟨qa, qb, ha, hb, rfl, hprod, -⟩ := h
      exact .inr (.inr ⟨qb, by rw [regOf_eq_some_iff_regByte.mp ha, regOf_eq_some_iff_regByte.mp hb]; rfl, hprod⟩)
    | jeq r | jne r => obtain ⟨_, _, _, hc⟩ := h; cases hc
    | ldi _ _ | prn _ | cmp _ _ | st _ _ | jmp _ | hlt | unrecognised _ => exact h.elim
  · rintro (⟨q, rfl, hsp⟩ | ⟨q, rfl, hsp⟩ | ⟨q, rfl, hprod⟩)
    · exact ⟨q, regOf_regByte q, BitVec.eq_of_toNat_eq hsp, rfl⟩
    · exact ⟨q, regOf_regByte q, BitVec.eq_of_toNat_eq hsp, rfl⟩
    · exact ⟨7, q, regOf_regByte 7, regOf_regByte q, rfl, hprod, rfl⟩

end Sys2Proof.Machine

namespace Sys2Proof.Claims

open Sys2Proof.Machine

/-- Settles O15: the branch of `step` for a successful fetch. -/
theorem stepRunsFetchedInstruction : Obligations.StepRunsFetchedInstruction :=
  fun _ _ hr hfetch => step_of_fetch_ok hr hfetch

/-- Settles O16: the fetch succeeds where the encoding stands. -/
theorem stepRunsEncodedInstruction : Obligations.StepRunsEncodedInstruction :=
  fun _ _ hr henc hreads => step_of_fetch_ok hr (fetch_eq_ok_iff.mpr ⟨henc, hreads⟩)

/-- Settles O17: the other branch of `step`. -/
theorem stepOnlyWhileRunning : Obligations.StepOnlyWhileRunning := fun _ h => step_of_not_running h

/-- Settles O18: a step stays, raises, or executes an instruction, and each of these answers. -/
theorem everyStepAnswers : Obligations.EveryStepAnswers := by
  intro s
  by_cases hr : s.status = .running
  · cases hf : fetch s with
    | error e => exact ⟨_, step_of_fetch_error hr hf⟩
    | ok i => rw [step_of_fetch_ok hr hf]; exact exec_answers i s
  · exact ⟨s, step_of_not_running hr⟩

/-- Settles O19: the fetch fails at the opcode byte. -/
theorem opcodeFetchPastMemoryAborts : Obligations.OpcodeFetchPastMemoryAborts :=
  fun _ hr hpc => aborts_of_eq_raise (step_of_fetch_error hr (fetch_of_pc_ge hpc))

/-- Settles O20: the fetch fails at the operand byte that would stand at 256. -/
theorem operandFetchPastMemoryAborts : Obligations.OperandFetchPastMemoryAborts :=
  fun _ _ hr hop hlen => step_aborts_of_reaches_past hr hop hlen

/-- Settles O21: the register bytes of these instructions are illegal, and which one is the first decides the
address. -/
theorem illegalRegisterByteAborts : Obligations.IllegalRegisterByteAborts := by
  refine ⟨fun s r v hr i hi => ?_, fun s a b i hi => ⟨fun ha => ?_, fun ha hb => ?_⟩⟩
  · have hl := legalReg_of_ge hr
    exact exec_aborts_of_illegal (by fin_cases hi <;> exact hl) (by fin_cases hi <;> rfl)
  · have hl := legalReg_of_ge ha
    exact exec_aborts_of_illegal (by fin_cases hi <;> simp [Instr.regsLegal, hl])
      (by fin_cases hi <;> simp [firstIllegal, hl])
  · have hla := legalReg_of_le ha
    have hlb := legalReg_of_ge hb
    exact exec_aborts_of_illegal (by fin_cases hi <;> simp [Instr.regsLegal, hlb])
      (by fin_cases hi <;> simp [firstIllegal, hla])

/-- Settles O22: a running step that ends Aborted was a `raise`. -/
theorem abortIsPrecise : Obligations.AbortIsPrecise := by
  intro s t hr hstep hab
  obtain ⟨c, ir, addr, rfl⟩ | ⟨i, -, hdone⟩ := step_aborts_or_completes hr hstep
  · exact ⟨c, ir, addr, s.raise_abortedBy c ir addr⟩
  · exact absurd hab (hdone.status_ne_aborted (by simp [hr]))

/-- Settles O23: for each cause the ways to raise it, of which only one can have that cause. -/
theorem abortCausesExactly : Obligations.AbortCausesExactly := by
  intro s t hr hstep
  have causes := abortsWith_iff hr hstep
  refine ⟨?_, ?_, ?_, ?_, ?_⟩
  · rw [causes, ← fetch_fails_iff]
    refine ⟨?_, fun h => .inl ⟨rfl, h⟩⟩
    rintro (⟨-, h⟩ | ⟨i, -, hc⟩ | ⟨hc, -⟩)
    · exact h
    · cases hc.cause <;> contradiction
    · cases hc
  · rw [causes]
    refine ⟨?_, fun h => .inr (.inr ⟨rfl, h⟩)⟩
    rintro (⟨hc, -⟩ | ⟨i, -, hc⟩ | ⟨-, h⟩)
    · cases hc
    · cases hc.cause <;> contradiction
    · exact h
  · rw [causes]
    constructor
    · rintro (⟨hc, -⟩ | ⟨i, hi, hc⟩ | ⟨hc, -⟩)
      · cases hc
      · obtain ⟨q, hflv, rfl | rfl⟩ := checksFail_flagsUndefined_iff.mp hc
        · exact ⟨q, hflv, .inl hi⟩
        · exact ⟨q, hflv, .inr hi⟩
      · cases hc
    · rintro ⟨q, hflv, hi | hi⟩
      · exact .inr (.inl ⟨_, hi, checksFail_flagsUndefined_iff.mpr ⟨q, hflv, .inl rfl⟩⟩)
      · exact .inr (.inl ⟨_, hi, checksFail_flagsUndefined_iff.mpr ⟨q, hflv, .inr rfl⟩⟩)
  · rw [causes]
    constructor
    · rintro (⟨hc, -⟩ | ⟨i, hi, hc⟩ | ⟨hc, -⟩)
      · cases hc
      · obtain ⟨q, rfl, h⟩ | ⟨q, rfl, h⟩ | ⟨q, rfl, h⟩ := checksFail_stackPointerRange_iff.mp hc
        · exact .inl ⟨q, hi, h⟩
        · exact .inr (.inl ⟨q, hi, h⟩)
        · exact .inr (.inr ⟨q, hi, h⟩)
      · cases hc
    · rintro (⟨q, hi, h⟩ | ⟨q, hi, h⟩ | ⟨q, hi, h⟩)
      · exact .inr (.inl ⟨_, hi, checksFail_stackPointerRange_iff.mpr (.inl ⟨q, rfl, h⟩)⟩)
      · exact .inr (.inl ⟨_, hi, checksFail_stackPointerRange_iff.mpr (.inr (.inl ⟨q, rfl, h⟩))⟩)
      · exact .inr (.inl ⟨_, hi, checksFail_stackPointerRange_iff.mpr (.inr (.inr ⟨q, rfl, h⟩))⟩)
  · rw [causes]
    rintro (⟨hc, -⟩ | ⟨i, -, hc⟩ | ⟨hc, -⟩)
    · cases hc
    · cases hc.cause <;> contradiction
    · cases hc

end Sys2Proof.Claims
end

section
/-! What a completed instruction leaves as it was (the tables of spec/10_state.md section 1 and 20_memory.md section 2):
registers, cells, flags and events, each with the instructions that may write it. -/

namespace Sys2Proof.Machine

open Sys2Proof.Claims

variable {s t : State} {i : Instr}

@[simp] theorem State.jumpTo_reg (s : State) (q p : Reg) : (s.jumpTo q).reg p = s.reg p := rfl
@[simp] theorem State.jumpTo_mem (s : State) (q : Reg) : (s.jumpTo q).mem = s.mem := rfl
@[simp] theorem State.jumpTo_pc (s : State) (q : Reg) : (s.jumpTo q).pc = (s.reg q).toNat := rfl
@[simp] theorem State.jumpTo_status (s : State) (q : Reg) : (s.jumpTo q).status = s.status := rfl
@[simp] theorem State.jumpTo_fault (s : State) (q : Reg) : (s.jumpTo q).fault = s.fault := rfl
@[simp] theorem State.jumpTo_events (s : State) (q : Reg) : (s.jumpTo q).events = s.events := rfl

/-- The instruction may write register `q`. -/
def WritesReg : Instr → Reg → Prop
  | .ldi r _, q => regOf r = some q
  | .mul a _, q => regOf a = some q
  | .pop r, q => regOf r = some q ∨ q = 7
  | .push _, q => q = 7
  | .prn _, _ | .cmp _ _, _ | .st _ _, _ | .jmp _, _ | .jeq _, _ | .jne _, _ | .hlt, _ | .unrecognised _, _ => False

/-- The instruction, started in `s`, may write the cell at `a`. -/
def WritesCell : Instr → State → Nat → Prop
  | .st r _, s, a => ∃ q, regOf r = some q ∧ a = (s.reg q).toNat
  | .push _, s, a => a = s.sp.toNat
  | .ldi _ _, _, _ | .prn _, _, _ | .mul _ _, _, _ | .cmp _ _, _, _ | .pop _, _, _ | .jmp _, _, _ | .jeq _, _, _
  | .jne _, _, _ | .hlt, _, _ | .unrecognised _, _, _ => False

/-- A register the instruction does not write reads as before. -/
theorem Completes.reg_eq (h : Completes i s t) {q : Reg} (hq : ¬ WritesReg i q) : t.reg q = s.reg q := by
  cases i with
  | ldi r v =>
    obtain ⟨p, hp, rfl⟩ := h
    exact s.reg_setReg_ne (fun e => hq (by subst e; exact hp)) v
  | mul a b =>
    obtain ⟨p, _, hp, -, -, rfl⟩ := h
    exact s.reg_setReg_ne (fun e => hq (by subst e; exact hp)) _
  | push r =>
    obtain ⟨p, -, -, rfl⟩ := h
    exact State.reg_setReg_ne _ hq _
  | pop r =>
    obtain ⟨p, hp, -, rfl⟩ := h
    have hne : q ≠ p ∧ q ≠ 7 := ⟨fun e => hq (.inl (e ▸ hp)), fun e => hq (.inr e)⟩
    simp [State.reg_setReg_ne, hne]
  | prn r | jmp r => obtain ⟨p, -, rfl⟩ := h; simp
  | jeq r | jne r => obtain ⟨p, -, -, rfl⟩ := h; cases s.flags.equal <;> simp
  | cmp a b | st a b => obtain ⟨_, _, -, -, rfl⟩ := h; simp
  | hlt | unrecognised b => cases h; rfl

/-- A cell the instruction does not write reads as before. -/
theorem Completes.memRead_eq (h : Completes i s t) (hm : s.mem.wf = true) {a : Nat} (ha : ¬ WritesCell i s a) :
    memRead t.mem a = memRead s.mem a := by
  cases i with
  | st r1 r2 =>
    obtain ⟨p, _, hp, -, rfl⟩ := h
    exact s.setMem_poke_sameMemBut hm (s.reg p).isLt _ a fun e => ha ⟨p, hp, e⟩
  | push r =>
    obtain ⟨p, -, -, rfl⟩ := h
    exact s.setMem_poke_sameMemBut hm s.sp.isLt _ a ha
  | ldi r v | prn r | jmp r => obtain ⟨p, -, rfl⟩ := h; rfl
  | pop r => obtain ⟨p, -, -, rfl⟩ := h; rfl
  | jeq r | jne r => obtain ⟨p, -, -, rfl⟩ := h; cases s.flags.equal <;> rfl
  | mul a b => obtain ⟨_, _, -, -, -, rfl⟩ := h; rfl
  | cmp a b => obtain ⟨_, _, -, -, rfl⟩ := h; rfl
  | hlt | unrecognised b => cases h; rfl

/-- The canonical form of memory is kept (R39). -/
theorem Completes.mem_wf (h : Completes i s t) (hm : s.mem.wf = true) : t.mem.wf = true := by
  cases i with
  | st r1 r2 => obtain ⟨p, _, -, -, rfl⟩ := h; exact Memory.poke_wf (s.reg p).isLt hm
  | push r => obtain ⟨p, -, -, rfl⟩ := h; exact Memory.poke_wf s.sp.isLt hm
  | ldi r v | prn r | jmp r => obtain ⟨p, -, rfl⟩ := h; exact hm
  | pop r => obtain ⟨p, -, -, rfl⟩ := h; exact hm
  | jeq r | jne r => obtain ⟨p, -, -, rfl⟩ := h; cases s.flags.equal <;> exact hm
  | mul a b => obtain ⟨_, _, -, -, -, rfl⟩ := h; exact hm
  | cmp a b => obtain ⟨_, _, -, -, rfl⟩ := h; exact hm
  | hlt | unrecognised b => cases h; exact hm

/-- What a completed instruction emits: PRN one OUT event, the default arm one report, every other nothing
(R97, R140, R166). -/
theorem Completes.events_cases (h : Completes i s t) :
    t.events = s.events ∨
    (∃ r q, i = .prn r ∧ regOf r = some q ∧ t.events = s.events ++ [.out (s.reg q)]) ∨
    ∃ b, i = .unrecognised b ∧ t.events = s.events ++ [.report s.pc b] := by
  cases i with
  | prn r => obtain ⟨q, hq, rfl⟩ := h; exact .inr (.inl ⟨r, q, rfl, hq, rfl⟩)
  | unrecognised b => cases h; exact .inr (.inr ⟨b, rfl, rfl⟩)
  | ldi r v | jmp r => obtain ⟨q, -, rfl⟩ := h; exact .inl rfl
  | push r | pop r => obtain ⟨q, -, -, rfl⟩ := h; exact .inl rfl
  | jeq r | jne r => obtain ⟨q, -, -, rfl⟩ := h; cases s.flags.equal <;> exact .inl rfl
  | mul a b => obtain ⟨_, _, -, -, -, rfl⟩ := h; exact .inl rfl
  | cmp a b | st a b => obtain ⟨_, _, -, -, rfl⟩ := h; exact .inl rfl
  | hlt => cases h; exact .inl rfl

/-- No instruction that completes writes the fault record (R35). -/
theorem Completes.fault_eq (h : Completes i s t) : t.fault = s.fault := by
  cases i with
  | ldi r v | prn r | jmp r => obtain ⟨q, -, rfl⟩ := h; rfl
  | push r | pop r => obtain ⟨q, -, -, rfl⟩ := h; rfl
  | jeq r | jne r => obtain ⟨q, -, -, rfl⟩ := h; cases s.flags.equal <;> rfl
  | mul a b => obtain ⟨_, _, -, -, -, rfl⟩ := h; rfl
  | cmp a b | st a b => obtain ⟨_, _, -, -, rfl⟩ := h; rfl
  | hlt | unrecognised b => cases h; rfl

/-- What a completed instruction does to the flags: CMP writes them, every other keeps them (R30, R122). -/
theorem Completes.flags_cases (h : Completes i s t) :
    SameFlags s t ∨ (∃ a b, i = .cmp a b) ∧ t.flags.exactlyOne = true ∧ t.flv = true := by
  cases i with
  | cmp a b =>
    obtain ⟨_, _, -, -, rfl⟩ := h
    exact .inr ⟨⟨a, b, rfl⟩, compareFlags_exactlyOne _ _, rfl⟩
  | unrecognised b => cases h; exact .inl ⟨rfl, rfl⟩
  | ldi _ _ | prn _ | mul _ _ | push _ | pop _ | st _ _ | jmp _ | jeq _ | jne _ | hlt =>
    exact .inl (h.sameFlags (by simp [Instr.opcode]))

/-- The register that the first operand byte of the fetched instruction selects. -/
theorem operandAt_of_fetch {o ir : Byte} {rest : List Byte} {q : Reg} (hfetch : fetch s = .ok i)
    (henc : encode i = ir :: o :: rest) (hq : regOf o = some q) : OperandAt s (s.pc + 1) q := by
  obtain ⟨-, hreads⟩ := fetch_eq_ok_iff.mp hfetch
  rw [henc, readsAt_cons, readsAt_cons] at hreads
  exact ⟨o, hreads.2.1, hq⟩

/-- What is fetched at the CMP opcode is a CMP. -/
theorem cmp_of_fetch (hfetch : fetch s = .ok i) (hop : AtOpcode s 0xA7) : ∃ a b, i = .cmp a b := by
  have hi : i.opcode = 0xA7 := Option.some.inj ((atOpcode_of_fetch hfetch).symm.trans hop)
  cases i with
  | cmp a b => exact ⟨a, b, rfl⟩
  | unrecognised b =>
    obtain rfl : b = 0xA7 := hi
    exact absurd (fetch_eq_ok_iff.mp hfetch).1 (by decide)
  | ldi _ _ | prn _ | mul _ _ | push _ | pop _ | st _ _ | jmp _ | jeq _ | jne _ | hlt => simp [Instr.opcode] at hi

/-- A completed instruction leaves a running machine Running or Halted (R91). -/
theorem Completes.running_or_halted (h : Completes i s t) (hr : s.status = .running) :
    t.status = .running ∨ t.status = .halted := by
  by_cases hi : i = .hlt
  · subst hi
    cases h
    exact .inr rfl
  · exact .inl ((h.status hi).trans hr)

end Sys2Proof.Machine

namespace Sys2Proof.Claims

open Sys2Proof.Machine

/-- Settles O27: a step at no CMP keeps `FLV`; at a CMP it stays, aborts, or completes that CMP, which sets it. -/
theorem flagsValidOnlyByCompare : Obligations.FlagsValidOnlyByCompare := by
  intro s t hstep
  have of_change : t.flv ≠ s.flv → t.flv = true ∧ s.status = .running ∧ AtOpcode s 0xA7 := by
    intro hne
    obtain rfl | ⟨-, c, ir, addr, rfl⟩ | ⟨hr, i, hfetch, hdone⟩ := step_stays_raises_or_completes hstep
    · exact absurd rfl hne
    · exact absurd rfl hne
    · obtain ⟨-, hflv⟩ | ⟨⟨a, b, rfl⟩, -, hflv⟩ := hdone.flags_cases
      · exact absurd hflv hne
      · exact ⟨hflv, hr, atOpcode_of_fetch hfetch⟩
  constructor
  · intro hs
    by_contra ht
    exact ht (of_change fun e => ht (e.trans hs)).1
  · intro hs ht
    exact (of_change (by simp [hs, ht])).2

/-- Settles O29: a step that changes a byte completes an instruction that may write that cell. -/
theorem memoryChangesOnlyByStAndPush : Obligations.MemoryChangesOnlyByStAndPush := by
  intro s t a hm hstep hne
  obtain rfl | ⟨-, c, ir, addr, rfl⟩ | ⟨-, i, hfetch, hdone⟩ := step_stays_raises_or_completes hstep
  · exact absurd rfl hne
  · exact absurd rfl hne
  · have hw : WritesCell i s a := by
      by_contra hw
      exact hne (hdone.memRead_eq hm hw)
    have hop := atOpcode_of_fetch hfetch
    cases i with
    | st r1 r2 =>
      obtain ⟨q, hq, ha⟩ := hw
      exact .inl ⟨hop, q, operandAt_of_fetch hfetch rfl hq, ha⟩
    | push r => exact .inr ⟨hop, hw⟩
    | ldi _ _ | prn _ | mul _ _ | cmp _ _ | pop _ | jmp _ | jeq _ | jne _ | hlt | unrecognised _ => exact hw.elim

/-- Settles O30: a step that changes a register completes an instruction that may write it. -/
theorem registersChangeOnlyAsTabled : Obligations.RegistersChangeOnlyAsTabled := by
  intro s t q hstep hne
  obtain rfl | ⟨-, c, ir, addr, rfl⟩ | ⟨-, i, hfetch, hdone⟩ := step_stays_raises_or_completes hstep
  · exact absurd rfl hne
  · exact absurd rfl hne
  · have hw : WritesReg i q := by
      by_contra hw
      exact hne (hdone.reg_eq hw)
    have hop := atOpcode_of_fetch hfetch
    cases i with
    | ldi r v => exact .inl ⟨.inl hop, operandAt_of_fetch hfetch rfl hw⟩
    | mul a b => exact .inl ⟨.inr (.inl hop), operandAt_of_fetch hfetch rfl hw⟩
    | push r => exact .inr ⟨.inl hop, hw⟩
    | pop r =>
      rcases hw with hq | hq
      · exact .inl ⟨.inr (.inr hop), operandAt_of_fetch hfetch rfl hq⟩
      · exact .inr ⟨.inr hop, hq⟩
    | prn _ | cmp _ _ | st _ _ | jmp _ | jeq _ | jne _ | hlt | unrecognised _ => exact hw.elim

/-- Settles O31: a `raise` emits the record it sets, and a completed instruction what `Completes.events_cases` lists. -/
theorem eventsOfAStep : Obligations.EventsOfAStep := by
  intro s t hstep
  obtain rfl | ⟨-, c, ir, addr, rfl⟩ | ⟨-, i, hfetch, hdone⟩ := step_stays_raises_or_completes hstep
  · exact .inl rfl
  · exact .inr (.inr (.inr ⟨_, rfl, rfl, rfl⟩))
  · have hop := atOpcode_of_fetch hfetch
    obtain he | ⟨r, q, rfl, hq, he⟩ | ⟨b, rfl, he⟩ := hdone.events_cases
    · exact .inl he
    · exact .inr (.inl ⟨q, hop, operandAt_of_fetch hfetch rfl hq, he⟩)
    · have hb : b ∉ opcodeBytes := by simpa [Instr.encodable] using (fetch_eq_ok_iff.mp hfetch).1
      exact .inr (.inr (.inl ⟨b, hop, hb, he⟩))

end Sys2Proof.Claims
end

section
/-! The invariant of the machine (`State.Inv`): it holds after reset, a load keeps it, and a step keeps it. -/

namespace Sys2Proof.Machine

open Sys2Proof.Claims

variable {s t : State} {i : Instr}

/-- A running machine has no fault record, and run events only (R34, R35). -/
theorem State.Inv.of_running (h : s.Inv) (hr : s.status = .running) :
    s.fault = none ∧ s.events.all Event.ofRun = true := by
  obtain ⟨-, -, -, ⟨hfault, -⟩, -, -, hrun⟩ := h
  refine ⟨?_, hrun (.inl hr)⟩
  rw [← Option.not_isSome_iff_eq_none, ← hfault, hr]
  simp

/-- Of a machine that is Running or Halted the invariant asks this much. -/
theorem State.inv_of_running_or_halted (hst : t.status = .running ∨ t.status = .halted) (hm : t.mem.wf = true)
    (hpc : t.pc ≤ Config.memSize) (hflags : t.FlagsOk) (hfault : t.fault = none)
    (hev : t.events.all Event.ofRun = true) : t.Inv := by
  refine ⟨hm, hpc, hflags, ⟨?_, by simp [hfault]⟩, ?_, ?_, fun _ => hev⟩
  · rcases hst with h | h <;> simp [h, hfault]
  · rcases hst with h | h <;> simp [h]
  · rcases hst with h | h <;> simp [h]

/-- `raise` in a running machine keeps the invariant (R151). -/
theorem State.Inv.raise (h : s.Inv) (hr : s.status = .running) (c : Cause) (ir : Option Byte) (addr : Option Nat) :
    (s.raise c ir addr).Inv := by
  obtain ⟨-, hev⟩ := h.of_running hr
  obtain ⟨hm, hpc, hflags, -, -⟩ := h
  refine ⟨hm, hpc, hflags, ⟨by simp, ?_⟩, by simp, by simp, by simp⟩
  intro r hrec
  obtain rfl := Option.some.inj hrec
  simp only [State.raise_pc, State.raise_events, List.getLast?_concat, List.dropLast_concat]
  exact ⟨trivial, trivial, hev⟩

/-- The program counter stays at 256 or below: a jump goes to a byte's value, and the instruction advanced over was
fetched from memory (R27, R99). -/
theorem Completes.pc_le (h : Completes i s t) (hfetch : fetch s = .ok i) (hpc : s.pc ≤ Config.memSize) :
    t.pc ≤ Config.memSize := by
  have hfits : s.pc + opcodeLength i.opcode ≤ 256 := fits_of_fetch hfetch
  have htarget : ∀ q, (s.reg q).toNat ≤ 256 := fun q => Nat.le_of_lt (s.reg q).isLt
  cases i with
  | jmp r => obtain ⟨q, -, rfl⟩ := h; exact htarget q
  | jeq r =>
    obtain ⟨q, -, -, rfl⟩ := h
    cases s.flags.equal
    · exact hfits
    · exact htarget q
  | jne r =>
    obtain ⟨q, -, -, rfl⟩ := h
    cases s.flags.equal
    · exact htarget q
    · exact hfits
  | hlt => cases h; exact hpc
  | ldi r v | prn r => obtain ⟨q, -, rfl⟩ := h; exact hfits
  | push r | pop r => obtain ⟨q, -, -, rfl⟩ := h; exact hfits
  | mul a b => obtain ⟨_, _, -, -, -, rfl⟩ := h; exact hfits
  | cmp a b | st a b => obtain ⟨_, _, -, -, rfl⟩ := h; exact hfits
  | unrecognised b =>
    cases h
    exact Nat.le_trans (Nat.add_le_add_left (Nat.le_add_right 1 _) s.pc) hfits

/-- The flags keep their condition: CMP makes exactly one true, and no other instruction touches them (R33, R122). -/
theorem Completes.flagsOk (h : Completes i s t) (hs : s.FlagsOk) : t.FlagsOk := by
  obtain ⟨hflags, hflv⟩ | ⟨-, hone, hflv⟩ := h.flags_cases
  · rwa [State.FlagsOk, hflags, hflv]
  · exact ⟨fun h => by simp [hflv] at h, fun _ => hone⟩

/-- A completed instruction emits run events only. -/
theorem Completes.events_ofRun (h : Completes i s t) (hs : s.events.all Event.ofRun = true) :
    t.events.all Event.ofRun = true := by
  obtain he | ⟨r, q, -, -, he⟩ | ⟨b, -, he⟩ := h.events_cases <;> rw [he]
  · exact hs
  · rw [List.all_append, hs]; rfl
  · rw [List.all_append, hs]; rfl

/-- A completed instruction keeps the invariant. -/
theorem State.Inv.completes (hs : s.Inv) (hr : s.status = .running) (hfetch : fetch s = .ok i)
    (h : Completes i s t) : t.Inv := by
  obtain ⟨hfault, hev⟩ := hs.of_running hr
  obtain ⟨hm, hpc, hflags, -, -⟩ := hs
  exact State.inv_of_running_or_halted (h.running_or_halted hr) (h.mem_wf hm) (h.pc_le hfetch hpc) (h.flagsOk hflags)
    (h.fault_eq.trans hfault) (h.events_ofRun hev)

end Sys2Proof.Machine

namespace Sys2Proof.Claims

open Sys2Proof.Machine

/-- Settles O3: a step stays, raises or completes an instruction, and each of these keeps the invariant. -/
theorem stepKeepsInvariant : Obligations.StepKeepsInvariant := by
  intro s t hs hstep
  obtain rfl | ⟨hr, c, ir, addr, rfl⟩ | ⟨hr, i, hfetch, hdone⟩ := step_stays_raises_or_completes hstep
  · exact hs
  · exact hs.raise hr _ _ _
  · exact hs.completes hr hfetch hdone

/-- Settles O2: each part of the invariant of the one state after reset. -/
theorem resetMeetsInvariant : Obligations.ResetMeetsInvariant := by
  unfold Obligations.ResetMeetsInvariant
  decide

/-- Settles O4: only in Loading does a load act, and there the state is the reset state. -/
theorem loadKeepsInvariant : Obligations.LoadKeepsInvariant := by
  intro s r hs
  by_cases hl : s.status = .loading
  · obtain rfl : s = State.reset := by
      obtain ⟨-, -, -, -, hphase, -⟩ := hs
      exact hphase hl
    cases hb : imageBytes r with
    | ok bytes =>
      rw [show State.reset.load r = State.reset.install bytes by simp [State.load, hl, hb]]
      exact State.inv_of_running_or_halted (.inl rfl) (placeBytes_wf bytes _ rfl) (Nat.zero_le _)
        ⟨fun _ => rfl, fun h => absurd h Bool.false_ne_true⟩ rfl rfl
    | error c =>
      rw [show State.reset.load r = State.reset.loadFail c by simp [State.load, hl, hb]]
      cases c <;> decide
  · rwa [show s.load r = s by simp [State.load, hl]]

end Sys2Proof.Claims
end

section
/-! Greater and Less are never read (spec/10_state.md R30): every outcome of a step is the same from a state with other
values of the two. -/

namespace Sys2Proof.Machine

open Sys2Proof.Claims

variable {s t : State} {i : Instr} {g l : Bool}

/-- An instruction that completes and is no CMP carries the two flags through. -/
theorem completes_withGreaterLess (h : Completes i s t) (hi : ∀ a b, i ≠ .cmp a b) :
    Completes i (withGreaterLess s g l) (withGreaterLess t g l) := by
  cases i with
  | cmp a b => exact absurd rfl (hi a b)
  | ldi r v | prn r | jmp r => obtain ⟨q, hq, rfl⟩ := h; exact ⟨q, hq, rfl⟩
  | push r | pop r => obtain ⟨q, hq, hsp, rfl⟩ := h; exact ⟨q, hq, hsp, rfl⟩
  | jeq r | jne r => obtain ⟨q, hq, hflv, rfl⟩ := h; exact ⟨q, hq, hflv, apply_ite (withGreaterLess · g l) _ _ _⟩
  | mul a b => obtain ⟨qa, qb, ha, hb, hn, rfl⟩ := h; exact ⟨qa, qb, ha, hb, hn, rfl⟩
  | st a b => obtain ⟨qa, qb, ha, hb, rfl⟩ := h; exact ⟨qa, qb, ha, hb, rfl⟩
  | hlt | unrecognised b => cases h; rfl

/-- A CMP that completes writes over them. -/
theorem completes_cmp_withGreaterLess {a b : Byte} (h : Completes (.cmp a b) s t) :
    Completes (.cmp a b) (withGreaterLess s g l) t := by
  obtain ⟨qa, qb, ha, hb, rfl⟩ := h
  exact ⟨qa, qb, ha, hb, rfl⟩

/-- No check of an instruction looks at them. -/
theorem checksFail_withGreaterLess {c : Cause} (h : ChecksFail i s c) : ChecksFail i (withGreaterLess s g l) c := by
  cases i <;> exact h

end Sys2Proof.Machine

namespace Sys2Proof.Claims

open Sys2Proof.Machine

/-- Settles O28: staying, raising and completing each commute with the change of the two flags, but for a completed
CMP, which is at its opcode in a machine that stays Running. -/
theorem greaterAndLessAreNeverRead : Obligations.GreaterAndLessAreNeverRead := by
  intro s t g l hstep
  obtain ⟨hn, rfl⟩ | ⟨hr, e, he, rfl⟩ | ⟨hr, i, hfetch, hdone | ⟨c, rfl, hc⟩ | ⟨rfl, hl⟩⟩ := step_cases hstep
  · exact ⟨fun _ => step_of_not_running hn, fun _ hr => absurd hr hn⟩
  · exact ⟨fun _ => step_of_fetch_error hr he, fun _ h => by cases h⟩
  · constructor
    · intro hcase
      refine step_of_completes hr hfetch (completes_withGreaterLess hdone ?_)
      rintro a b rfl
      rcases hcase with hop | hst
      · exact hop (atOpcode_of_fetch hfetch)
      · exact hst ((hdone.status (by simp)).trans hr)
    · intro hop _
      obtain ⟨a, b, rfl⟩ := cmp_of_fetch hfetch hop
      exact step_of_completes hr hfetch (completes_cmp_withGreaterLess hdone)
  · exact ⟨fun _ => (step_of_fetch_ok (s := withGreaterLess s g l) hr hfetch).trans
      (exec_of_checksFail (checksFail_withGreaterLess hc)),
      fun _ h => by cases h⟩
  · exact ⟨fun _ => (step_of_fetch_ok (s := withGreaterLess s g l) hr hfetch).trans (exec_of_illegal hl),
      fun _ h => by cases h⟩

end Sys2Proof.Claims
end

section
/-! The refinement of the pseudocode of the whole step (spec/40_fetch_decode_execute.md R100): `view` carries each
update of the state, each check and each fetch over to the operation of the pseudocode that stands for it. -/

namespace Sys2Proof.Machine

open Sys2Proof.Claims

variable {s t : State} {i : Instr} {p : PState}

/-! ### The view of a state and of its updates -/

@[simp] theorem byte_toNat (v : Byte) : byte v.toNat = v := by simp [byte]

/-- The registers as integers. -/
theorem view_x (s : State) (q : Reg) : (view s).x q.val = (s.reg q).toNat := by simp [view]

/-- A byte read from memory as an integer. -/
theorem view_M {a : Nat} {v : Byte} (h : memRead s.mem a = some v) : (view s).M a = v.toNat := by
  rw [memRead_of_lt (lt_of_memRead h)] at h
  rw [← Option.some.inj h]
  rfl

/-- The opcode byte read back from its integer. -/
theorem atOpcode_of_view {ir : Byte} (hpc : s.pc < 256) (h : (view s).M (view s).pc = ir.toNat) : AtOpcode s ir :=
  (memRead_of_lt hpc).trans (congrArg some (BitVec.eq_of_toNat_eq h))

/-- The opcode byte as an integer. -/
theorem view_opcode {ir : Byte} (h : AtOpcode s ir) : (view s).M (view s).pc = ir.toNat := view_M h

theorem view_raise (s : State) (c : Cause) (ir : Option Byte) (addr : Option Nat) :
    view (s.raise c ir addr) = (view s).abort c (ir.map BitVec.toNat) addr := by
  have hir : (ir.map BitVec.toNat).map byte = ir := by cases ir <;> simp
  rw [PState.abort, hir]
  rfl

theorem view_advance (s : State) (n : Nat) : view (s.advance n) = { view s with pc := s.pc + n } := rfl

theorem view_jumpTo (s : State) (q : Reg) : view (s.jumpTo q) = { view s with pc := (s.reg q).toNat } := rfl

theorem view_emit (s : State) (e : Event) : view (s.emit e) = { view s with events := s.events ++ [e] } := rfl

theorem view_setReg (s : State) (q : Reg) (v : Byte) :
    view (s.setReg q v) = { view s with x := update (view s).x q.val v.toNat } := by
  have hx : (view (s.setReg q v)).x = update (view s).x q.val v.toNat := by
    funext j
    by_cases hj : j = q.val
    · subst hj
      rw [view_x, State.reg_setReg_self, update, if_pos rfl]
    · rw [update, if_neg hj]
      by_cases h8 : j < 8
      · have hne : (⟨j, h8⟩ : Reg) ≠ q := fun e => hj (congrArg Fin.val e)
        simp only [view, dif_pos h8, State.reg_setReg_ne s hne]
      · simp only [view, dif_neg h8]
  rw [← hx]
  rfl

theorem view_setMem_poke (hm : s.mem.wf = true) (a : Nat) (v : Byte) :
    view (s.setMem (s.mem.poke a v)) = { view s with M := update (view s).M a v.toNat } := by
  have hM : (view (s.setMem (s.mem.poke a v))).M = update (view s).M a v.toNat := by
    funext b
    simp only [view, State.setMem_mem, Memory.peek_poke hm, update, apply_ite BitVec.toNat]
  rw [← hM]
  rfl

/-! ### Refinement of an outcome, of its checks and of its fetch -/

/-- The outcome is a next state, which the pseudocode sees as `p`. -/
def Refines (res : Result) (p : PState) : Prop := ∃ t, res = .next t ∧ view t = p

theorem refines_ite {c : Prop} [Decidable c] {res : Result} {p q : PState} (hp : c → Refines res p)
    (hq : ¬ c → Refines res q) : Refines res (if c then p else q) := by
  split
  · exact hp ‹_›
  · exact hq ‹_›

theorem refines_raise {res : Result} {c : Cause} {ir : Option Byte} {addr : Option Nat}
    (h : res = .next (s.raise c ir addr)) : Refines res ((view s).abort c (ir.map BitVec.toNat) addr) :=
  ⟨_, h, view_raise s c ir addr⟩

theorem refines_of_completes (h : Completes i s t) (hv : view t = p) : Refines (exec i s) p :=
  ⟨t, exec_of_completes h, hv⟩

/-- The pseudocode aborts for an instruction's own check with the byte at `pc`. -/
theorem refines_of_checksFail {c : Cause} (hop : AtOpcode s i.opcode) (h : ChecksFail i s c) :
    Refines (exec i s) ((view s).abort c (some ((view s).M (view s).pc)) none) := by
  rw [view_opcode hop]
  exact refines_raise (exec_of_checksFail h)

/-- The check of a register byte, of which the instruction's own check says where it stands (R95). -/
theorem refines_checkReg {o : Byte} {k : Nat} (hop : AtOpcode s i.opcode)
    (hillegal : legalReg o = false → i.regsLegal = false ∧ firstIllegal i = k)
    (hlegal : ∀ q, regOf o = some q → Refines (exec i s) p) :
    Refines (exec i s) ((view s).checkReg o.toNat (s.pc + k) p) := by
  refine refines_ite (fun h => ?_) (fun h => hlegal _ (regOf_of_lt (Nat.lt_succ_of_le (Nat.not_lt.mp h))))
  obtain ⟨hl, rfl⟩ := hillegal (legalReg_of_ge h)
  rw [view_opcode hop]
  exact refines_raise (exec_of_illegal hl)

/-- The checks of two register bytes, in their order (R95). -/
theorem refines_checkRegs {o1 o2 : Byte} (hop : AtOpcode s i.opcode)
    (hregs : i.regsLegal = (legalReg o1 && legalReg o2)) (hfirst : firstIllegal i = if legalReg o1 then 2 else 1)
    (hlegal : ∀ qa qb, regOf o1 = some qa → regOf o2 = some qb → Refines (exec i s) p) :
    Refines (exec i s) ((view s).checkReg o1.toNat (s.pc + 1) ((view s).checkReg o2.toNat (s.pc + 2) p)) := by
  refine refines_checkReg hop (fun h1 => by simp [hregs, hfirst, h1]) fun qa ha => ?_
  have h1 := (regOf_eq_some_legal ha).1
  exact refines_checkReg hop (fun h2 => by simp [hregs, hfirst, h1, h2]) fun qb hb => hlegal qa qb ha hb

/-- An instruction of format RR or RI is fetched with the two bytes that follow its opcode byte. -/
theorem fetch_of_two {ir o1 o2 : Byte} {mk : Byte → Byte → Instr} (hop : AtOpcode s ir)
    (hf : decodeOpcode ir = .rr mk ∨ decodeOpcode ir = .ri mk) (h1 : memRead s.mem (s.pc + 1) = some o1)
    (h2 : memRead s.mem (s.pc + 2) = some o2) : fetch s = .ok (mk o1 o2) := by
  rcases hf with hf | hf <;>
    simp only [fetch, decodeAt, show memRead s.mem s.pc = some ir from hop, hf, h1, h2]

/-- A step that reaches past memory, as the pseudocode has it: the byte missing is the one at 256. -/
theorem refines_reaches_past {ir : Byte} {k : Nat} (hr : s.status = .running) (hop : AtOpcode s ir)
    (hlen : 256 < s.pc + opcodeLength ir) (hk : s.pc + k = 256) :
    Refines (step s) ((view s).abort .memoryBounds (some ((view s).M (view s).pc)) (some (s.pc + k))) := by
  obtain ⟨e, he, hir, haddr⟩ := fetch_of_reaches_past hop hlen
  have h := refines_raise (step_of_fetch_error hr he)
  rwa [hir, haddr, ← hk, Option.map_some, ← view_opcode hop] at h

/-- Fetch of one operand byte, then the instruction (R93, R94). -/
theorem refines_operand1 {ir : Byte} {mk : Byte → Instr} {k : Nat → PState} (hr : s.status = .running)
    (hop : AtOpcode s ir) (hf : decodeOpcode ir = .r mk) (h : ∀ o : Byte, Refines (exec (mk o) s) (k o.toNat)) :
    Refines (step s) ((view s).operand1 k) := by
  have hpc := lt_of_memRead hop
  have hlen : opcodeLength ir = 2 := by simp [opcodeLength, hf, Form.operands]
  refine refines_ite (fun h1 : s.pc + 1 > 255 => ?_) (fun h1 : ¬ s.pc + 1 > 255 => ?_)
  · exact refines_reaches_past hr hop (by omega) (by omega)
  · have ho := memRead_of_lt (m := s.mem) (a := (view s).pc + 1) (Nat.lt_succ_of_le (Nat.not_lt.mp h1))
    rw [step_of_fetch_ok hr (fetch_of_r hop hf ho), view_M ho]
    exact h _

/-- Fetch of two operand bytes in address order, then the instruction (R93, R94). -/
theorem refines_operands2 {ir : Byte} {mk : Byte → Byte → Instr} {k : Nat → Nat → PState} (hr : s.status = .running)
    (hop : AtOpcode s ir) (hf : decodeOpcode ir = .rr mk ∨ decodeOpcode ir = .ri mk)
    (h : ∀ o1 o2 : Byte, Refines (exec (mk o1 o2) s) (k o1.toNat o2.toNat)) :
    Refines (step s) ((view s).operands2 k) := by
  have hpc := lt_of_memRead hop
  have hlen : opcodeLength ir = 3 := by rcases hf with hf | hf <;> simp [opcodeLength, hf, Form.operands]
  refine refines_ite (fun h1 : s.pc + 1 > 255 => ?_) (fun h1 : ¬ s.pc + 1 > 255 => ?_)
  · exact refines_reaches_past hr hop (by omega) (by omega)
  refine refines_ite (fun h2 : s.pc + 2 > 255 => ?_) (fun h2 : ¬ s.pc + 2 > 255 => ?_)
  · exact refines_reaches_past hr hop (by omega) (by omega)
  · have ho1 := memRead_of_lt (m := s.mem) (a := (view s).pc + 1) (Nat.lt_succ_of_le (Nat.not_lt.mp h1))
    have ho2 := memRead_of_lt (m := s.mem) (a := (view s).pc + 2) (Nat.lt_succ_of_le (Nat.not_lt.mp h2))
    rw [step_of_fetch_ok hr (fetch_of_two hop hf ho1 ho2), view_M ho1, view_M ho2]
    exact h _ _

/-! ### The arms of the pseudocode -/

/-- The integer of a register byte is the index of the register it selects. -/
theorem toNat_of_regOf {o : Byte} {q : Reg} (h : regOf o = some q) : o.toNat = q.val := regOf_eq_some_iff.mp h

theorem view_sp (s : State) : (view s).x 7 = s.sp.toNat := view_x s 7

theorem refines_ldi (hop : AtOpcode s 0x82) (r v : Byte) :
    Refines (exec (.ldi r v) s) ((view s).checkReg r.toNat (s.pc + 1)
      { view s with x := update (view s).x r.toNat v.toNat, pc := s.pc + 3 }) := by
  refine refines_checkReg hop (fun h => ⟨h, rfl⟩) fun q hq => refines_of_completes ⟨q, hq, rfl⟩ ?_
  rw [view_advance, view_setReg, toNat_of_regOf hq]
  rfl

theorem refines_prn (hop : AtOpcode s 0x47) (r : Byte) :
    Refines (exec (.prn r) s) ((view s).checkReg r.toNat (s.pc + 1)
      { view s with events := s.events ++ [.out (byte ((view s).x r.toNat))], pc := s.pc + 2 }) := by
  refine refines_checkReg hop (fun h => ⟨h, rfl⟩) fun q hq => refines_of_completes ⟨q, hq, rfl⟩ ?_
  rw [view_advance, view_emit, toNat_of_regOf hq, view_x, byte_toNat]
  rfl

theorem refines_mul (hop : AtOpcode s 0xA2) (a b : Byte) :
    Refines (exec (.mul a b) s) ((view s).checkReg a.toNat (s.pc + 1) <| (view s).checkReg b.toNat (s.pc + 2) <|
      if a.toNat = 7 ∧ (view s).x a.toNat * (view s).x b.toNat > 255 then
        (view s).abort .stackPointerRange (some ((view s).M (view s).pc)) none
      else { view s with
        x := update (view s).x a.toNat ((view s).x a.toNat * (view s).x b.toNat % 256), pc := s.pc + 3 }) := by
  refine refines_checkRegs hop rfl rfl fun qa qb ha hb => ?_
  rw [toNat_of_regOf ha, toNat_of_regOf hb, view_x, view_x]
  refine refines_ite (fun h => ?_) (fun h => ?_)
  · exact refines_of_checksFail hop ⟨qa, qb, ha, hb, Fin.ext h.1, h.2, rfl⟩
  · refine refines_of_completes ⟨qa, qb, ha, hb, fun h' => h ⟨congrArg Fin.val h'.1, h'.2⟩, rfl⟩ ?_
    rw [view_advance, view_setReg, BitVec.toNat_ofNat, Nat.mod_mod]
    rfl

theorem refines_cmp (hop : AtOpcode s 0xA7) (a b : Byte) :
    Refines (exec (.cmp a b) s) ((view s).checkReg a.toNat (s.pc + 1) <| (view s).checkReg b.toNat (s.pc + 2)
      { view s with
        E := decide ((view s).x a.toNat = (view s).x b.toNat), G := decide ((view s).x a.toNat > (view s).x b.toNat)
        L := decide ((view s).x a.toNat < (view s).x b.toNat), FLV := true, pc := s.pc + 3 }) := by
  refine refines_checkRegs hop rfl rfl fun qa qb ha hb => refines_of_completes ⟨qa, qb, ha, hb, rfl⟩ ?_
  rw [toNat_of_regOf ha, toNat_of_regOf hb, view_x, view_x]
  rfl

theorem refines_push (hm : s.mem.wf = true) (hop : AtOpcode s 0x45) (r : Byte) :
    Refines (exec (.push r) s) ((view s).checkReg r.toNat (s.pc + 1) <|
      if (view s).x 7 = 0 then (view s).abort .stackPointerRange (some ((view s).M (view s).pc)) none
      else { view s with
        M := update (view s).M ((view s).x 7) ((view s).x r.toNat), x := update (view s).x 7 ((view s).x 7 - 1)
        pc := s.pc + 2 }) := by
  refine refines_checkReg hop (fun h => ⟨h, rfl⟩) fun q hq => ?_
  rw [toNat_of_regOf hq, view_x, view_sp]
  refine refines_ite (fun h => ?_) (fun h => ?_)
  · exact refines_of_checksFail hop ⟨q, hq, BitVec.eq_of_toNat_eq h, rfl⟩
  · have hsp : s.sp ≠ 0 := fun e => h (by rw [e]; rfl)
    have hdec : (s.sp - 1).toNat = s.sp.toNat - 1 := by bv_omega
    refine refines_of_completes ⟨q, hq, hsp, rfl⟩ ?_
    rw [view_advance, view_setReg, view_setMem_poke hm, hdec]
    rfl

theorem refines_pop (hop : AtOpcode s 0x46) (r : Byte) :
    Refines (exec (.pop r) s) ((view s).checkReg r.toNat (s.pc + 1) <|
      if (view s).x 7 = 255 then (view s).abort .stackPointerRange (some ((view s).M (view s).pc)) none
      else { view s with
        x := update (update (view s).x 7 ((view s).x 7 + 1)) r.toNat ((view s).M ((view s).x 7 + 1))
        pc := s.pc + 2 }) := by
  refine refines_checkReg hop (fun h => ⟨h, rfl⟩) fun q hq => ?_
  rw [toNat_of_regOf hq, view_sp]
  refine refines_ite (fun h => ?_) (fun h => ?_)
  · exact refines_of_checksFail hop ⟨q, hq, BitVec.eq_of_toNat_eq h, rfl⟩
  · have hsp : s.sp ≠ 255 := fun e => h (by rw [e]; rfl)
    have hinc : (s.sp + 1).toNat = s.sp.toNat + 1 := by bv_omega
    refine refines_of_completes ⟨q, hq, hsp, rfl⟩ ?_
    rw [view_advance, view_setReg, view_setReg, hinc]
    rfl

theorem refines_st (hm : s.mem.wf = true) (hop : AtOpcode s 0x84) (a b : Byte) :
    Refines (exec (.st a b) s) ((view s).checkReg a.toNat (s.pc + 1) <| (view s).checkReg b.toNat (s.pc + 2)
      { view s with M := update (view s).M ((view s).x a.toNat) ((view s).x b.toNat), pc := s.pc + 3 }) := by
  refine refines_checkRegs hop rfl rfl fun qa qb ha hb => refines_of_completes ⟨qa, qb, ha, hb, rfl⟩ ?_
  rw [toNat_of_regOf ha, toNat_of_regOf hb, view_x, view_x, view_advance, view_setMem_poke hm]
  rfl

theorem refines_jmp (hop : AtOpcode s 0x54) (r : Byte) :
    Refines (exec (.jmp r) s) ((view s).checkReg r.toNat (s.pc + 1) { view s with pc := (view s).x r.toNat }) := by
  refine refines_checkReg hop (fun h => ⟨h, rfl⟩) fun q hq => refines_of_completes ⟨q, hq, rfl⟩ ?_
  rw [view_jumpTo, toNat_of_regOf hq, view_x]

theorem refines_jeq (hop : AtOpcode s 0x55) (r : Byte) :
    Refines (exec (.jeq r) s) ((view s).checkReg r.toNat (s.pc + 1) <|
      if (view s).FLV = false then (view s).abort .flagsUndefined (some ((view s).M (view s).pc)) none
      else if (view s).E then { view s with pc := (view s).x r.toNat } else { view s with pc := s.pc + 2 }) := by
  refine refines_checkReg hop (fun h => ⟨h, rfl⟩) fun q hq => ?_
  rw [toNat_of_regOf hq, view_x]
  refine refines_ite (fun h => ?_) (fun h => ?_)
  · exact refines_of_checksFail hop ⟨q, hq, h, rfl⟩
  · exact refines_of_completes ⟨q, hq, Bool.eq_true_of_not_eq_false h, rfl⟩ (apply_ite view _ _ _)

theorem refines_jne (hop : AtOpcode s 0x56) (r : Byte) :
    Refines (exec (.jne r) s) ((view s).checkReg r.toNat (s.pc + 1) <|
      if (view s).FLV = false then (view s).abort .flagsUndefined (some ((view s).M (view s).pc)) none
      else if (view s).E then { view s with pc := s.pc + 2 } else { view s with pc := (view s).x r.toNat }) := by
  refine refines_checkReg hop (fun h => ⟨h, rfl⟩) fun q hq => ?_
  rw [toNat_of_regOf hq, view_x]
  refine refines_ite (fun h => ?_) (fun h => ?_)
  · exact refines_of_checksFail hop ⟨q, hq, h, rfl⟩
  · exact refines_of_completes ⟨q, hq, Bool.eq_true_of_not_eq_false h, rfl⟩ (apply_ite view _ _ _)

/-- The default arm, where the byte is none of the eleven opcodes. -/
theorem refines_unrecognised (hr : s.status = .running) {b : Byte} (hop : AtOpcode s b)
    (hb : opcodeBytes.contains b = false) :
    Refines (step s)
      { view s with events := s.events ++ [.report s.pc (byte ((view s).M (view s).pc))], pc := s.pc + 1 } := by
  rw [step_of_fetch_ok hr (fetch_of_z hop (decodeOpcode_unrecognised hb)), view_opcode hop, byte_toNat]
  exact refines_of_completes rfl rfl

/-- The whole step, in the order of the pseudocode's tests of the opcode byte. -/
theorem refines_step (hm : s.mem.wf = true) (hr : s.status = .running) : Refines (step s) (view s).step := by
  refine refines_ite (fun hpc : s.pc > 255 => ?_) (fun hpc : ¬ s.pc > 255 => ?_)
  · exact refines_raise (step_of_fetch_error hr (fetch_of_pc_ge hpc))
  have hlt : s.pc < 256 := Nat.lt_succ_of_le (Nat.not_lt.mp hpc)
  have hop : ∀ ir : Byte, (view s).M (view s).pc = ir.toNat → AtOpcode s ir := fun _ => atOpcode_of_view hlt
  refine refines_ite (fun h => ?_) (fun hhlt => ?_)
  · exact ⟨_, step_hlt hr (hop 0x01 h), rfl⟩
  refine refines_ite (fun h => ?_) (fun hldi => ?_)
  · exact refines_operands2 hr (hop 0x82 h) (.inr rfl) (refines_ldi (hop 0x82 h))
  refine refines_ite (fun h => ?_) (fun hprn => ?_)
  · exact refines_operand1 hr (hop 0x47 h) rfl (refines_prn (hop 0x47 h))
  refine refines_ite (fun h => ?_) (fun hmul => ?_)
  · exact refines_operands2 hr (hop 0xA2 h) (.inl rfl) (refines_mul (hop 0xA2 h))
  refine refines_ite (fun h => ?_) (fun hcmp => ?_)
  · exact refines_operands2 hr (hop 0xA7 h) (.inl rfl) (refines_cmp (hop 0xA7 h))
  refine refines_ite (fun h => ?_) (fun hpush => ?_)
  · exact refines_operand1 hr (hop 0x45 h) rfl (refines_push hm (hop 0x45 h))
  refine refines_ite (fun h => ?_) (fun hpop => ?_)
  · exact refines_operand1 hr (hop 0x46 h) rfl (refines_pop (hop 0x46 h))
  refine refines_ite (fun h => ?_) (fun hst => ?_)
  · exact refines_operands2 hr (hop 0x84 h) (.inl rfl) (refines_st hm (hop 0x84 h))
  refine refines_ite (fun h => ?_) (fun hjmp => ?_)
  · exact refines_operand1 hr (hop 0x54 h) rfl (refines_jmp (hop 0x54 h))
  refine refines_ite (fun h => ?_) (fun hjeq => ?_)
  · exact refines_operand1 hr (hop 0x55 h) rfl (refines_jeq (hop 0x55 h))
  refine refines_ite (fun h => ?_) (fun hjne => ?_)
  · exact refines_operand1 hr (hop 0x56 h) rfl (refines_jne (hop 0x56 h))
  refine refines_unrecognised hr (hop _ rfl) ?_
  have differs : ∀ ir : Byte, (view s).M (view s).pc ≠ ir.toNat → s.mem.peek s.pc ≠ ir := by
    rintro ir hne rfl
    exact hne rfl
  simp only [opcodeBytes, List.contains_eq_mem, decide_eq_false_iff_not, List.mem_cons, List.not_mem_nil, or_false,
    not_or]
  exact ⟨differs _ hldi, differs _ hprn, differs _ hmul, differs _ hcmp, differs _ hpush, differs _ hpop,
    differs _ hst, differs _ hjmp, differs _ hjeq, differs _ hjne, differs _ hhlt⟩

end Sys2Proof.Machine

namespace Sys2Proof.Claims

open Sys2Proof.Machine

/-- Settles O32: the commuting square of the whole step. -/
theorem stepRefinesPseudocode : Obligations.StepRefinesPseudocode := fun _ hm hr => refines_step hm hr

end Sys2Proof.Claims
end

section
/-! Each instruction on its own (spec/41_data_movement.md to 44_output_and_halt.md): it completes with the state that
`Completes` names, whose parts the laws of the updates give. -/

namespace Sys2Proof.Claims

open Sys2Proof.Machine

/-- An opcode of length `n` less than `n` bytes below the end of memory aborts at 256. -/
theorem step_aborts_of_length {s : State} {ir : Byte} (n : Nat) (hr : s.status = .running) (hop : AtOpcode s ir)
    (hlen : opcodeLength ir = n) (h : 256 < s.pc + n) : Aborts s (step s) .memoryBounds (some ir) (some 256) :=
  step_aborts_of_reaches_past hr hop (hlen.symm ▸ h)

/-- Settles O33: the register is set and `pc` advanced; the two aborts are the general ones. -/
theorem ldiLoadsImmediate : Obligations.LdiLoadsImmediate := by
  refine ⟨fun _ _ => rfl, fun s q v => ?_, fun s r v hr => ?_, fun s hr hop hpc => ?_⟩
  · exact ⟨_, exec_of_completes ⟨q, regOf_regByte q, rfl⟩, s.reg_setReg_self q v, rfl,
      fun p hp => s.reg_setReg_ne hp v, fun _ => rfl, ⟨rfl, rfl⟩, ⟨rfl, rfl⟩, rfl⟩
  · exact exec_aborts_of_illegal (i := .ldi r v) (legalReg_of_ge hr) rfl
  · exact step_aborts_of_length 3 hr hop rfl (by omega)

/-- Settles O34: the cell is poked and `pc` advanced; the aborts are the general ones. -/
theorem stStoresThroughRegister : Obligations.StStoresThroughRegister := by
  refine ⟨fun _ _ => rfl, fun s a b hm => ?_, fun s a b => ⟨fun ha => ?_, fun ha hb => ?_⟩, fun s hr hop hpc => ?_⟩
  · exact ⟨_, exec_of_completes ⟨a, b, regOf_regByte a, regOf_regByte b, rfl⟩,
      s.memRead_setMem_poke_self hm (s.reg a).isLt _, s.setMem_poke_sameMemBut hm (s.reg a).isLt _, rfl,
      fun _ => rfl, ⟨rfl, rfl⟩, ⟨rfl, rfl⟩, rfl⟩
  · have hl := legalReg_of_ge ha
    exact exec_aborts_of_illegal (i := .st a b) (by simp [Instr.regsLegal, hl]) (by simp [firstIllegal, hl])
  · have hla := legalReg_of_le ha
    have hlb := legalReg_of_ge hb
    exact exec_aborts_of_illegal (i := .st a b) (by simp [Instr.regsLegal, hlb]) (by simp [firstIllegal, hla])
  · exact step_aborts_of_length 3 hr hop rfl (by omega)

/-- The state in which PUSH completes. -/
theorem exec_push {s : State} (q : Reg) (h : s.sp ≠ 0) : exec (.push (regByte q)) s =
    .next (((s.setMem (s.mem.poke s.sp.toNat (s.reg q))).setReg 7 (s.sp - 1)).advance 2) :=
  exec_of_completes ⟨q, regOf_regByte q, h, rfl⟩

/-- The state in which POP completes. -/
theorem exec_pop {s : State} (q : Reg) (h : s.sp ≠ 255) : exec (.pop (regByte q)) s =
    .next (((s.setReg 7 (s.sp + 1)).setReg q (s.mem.peek (s.sp.toNat + 1))).advance 2) :=
  exec_of_completes ⟨q, regOf_regByte q, h, rfl⟩

/-- Settles O35: the cell of the old pointer is poked and register 7 set; at 0 PUSH's own check fails. -/
theorem pushStoresThenDecrements : Obligations.PushStoresThenDecrements := by
  refine ⟨fun s q hm hsp => ?_, fun s q hsp => ?_⟩
  · have hdec : (s.sp - 1).toNat = s.sp.toNat - 1 := by bv_omega
    exact ⟨_, exec_push q hsp, s.memRead_setMem_poke_self hm s.sp.isLt _, s.setMem_poke_sameMemBut hm s.sp.isLt _,
      by rw [State.advance_reg, State.reg_setReg_self, hdec], fun p hp => State.reg_setReg_ne _ hp _, rfl,
      ⟨rfl, rfl⟩, ⟨rfl, rfl⟩, rfl⟩
  · exact exec_aborts_of_checksFail (i := .push (regByte q)) ⟨q, regOf_regByte q, hsp, rfl⟩

/-- Settles O36: register 7 is set, then the destination; at 255 POP's own check fails. -/
theorem popIncrementsThenLoads : Obligations.PopIncrementsThenLoads := by
  refine ⟨fun s q hsp => ?_, fun s q hsp => ?_⟩
  · have hinc : (s.sp + 1).toNat = s.sp.toNat + 1 := by bv_omega
    have hlt : s.sp.toNat + 1 < 256 := hinc ▸ (s.sp + 1).isLt
    exact ⟨_, s.mem.peek (s.sp.toNat + 1), exec_pop q hsp, memRead_of_lt hlt, by simp,
      fun hq => by rw [State.advance_reg, State.reg_setReg_ne _ hq.symm, State.reg_setReg_self, hinc],
      fun p hpq hp7 => by simp [State.reg_setReg_ne _ hpq, State.reg_setReg_ne _ hp7],
      fun _ => rfl, rfl, ⟨rfl, rfl⟩, ⟨rfl, rfl⟩, rfl⟩
  · exact exec_aborts_of_checksFail (i := .pop (regByte q)) ⟨q, regOf_regByte q, hsp, rfl⟩

/-- Settles O37: what PUSH leaves (O35) is what POP starts from (O36); its pointer is not 255, and the cell above it is
the one PUSH wrote. -/
theorem pushThenPopRoundTrips : Obligations.PushThenPopRoundTrips := by
  intro s p q hm hsp
  obtain ⟨t, hpush, hcell, -, hptr, hregs, -⟩ := pushStoresThenDecrements.1 s p hm hsp
  have hback : t.sp.toNat + 1 = s.sp.toNat := by
    have hpos : s.sp.toNat ≠ 0 := fun h => hsp (BitVec.eq_of_toNat_eq h)
    change t.sp.toNat = s.sp.toNat - 1 at hptr
    omega
  have hnot255 : t.sp ≠ 255 := fun h => by
    have hlt := s.sp.isLt
    rw [← hback, h] at hlt
    exact absurd hlt (by decide)
  obtain ⟨u, v, hpop, hread, hq, h7, hothers, -⟩ := popIncrementsThenLoads.1 t q hnot255
  rw [hback] at hread h7
  refine ⟨t, u, hpush, hpop, ?_, fun hq7 => BitVec.eq_of_toNat_eq (h7 hq7), fun r hrq hr7 => ?_⟩
  · rw [hq, ← Option.some.inj (hcell.symm.trans hread)]
  · rw [hothers r hrq hr7, hregs r hr7]

/-- Settles O38: the two sides of MUL's own check. -/
theorem mulMultipliesModulo256 : Obligations.MulMultipliesModulo256 := by
  refine ⟨fun s a b h => ?_, fun s b h => ?_⟩
  · exact ⟨_, exec_of_completes ⟨a, b, regOf_regByte a, regOf_regByte b, h, rfl⟩, by simp, rfl,
      fun p hp => s.reg_setReg_ne hp _, fun _ => rfl, ⟨rfl, rfl⟩, ⟨rfl, rfl⟩, rfl⟩
  · exact exec_aborts_of_checksFail (i := .mul 7 (regByte b)) ⟨7, b, regOf_regByte 7, regOf_regByte b, rfl, h, rfl⟩

/-- Settles O39: the flags are those of `compareFlags`. -/
theorem cmpComparesUnsigned : Obligations.CmpComparesUnsigned := by
  intro s a b
  exact ⟨_, exec_of_completes ⟨a, b, regOf_regByte a, regOf_regByte b, rfl⟩, decide_eq_true_iff, decide_eq_true_iff,
    decide_eq_true_iff, rfl, rfl, fun _ => rfl, fun _ => rfl, ⟨rfl, rfl⟩, rfl⟩

/-- A jump writes `pc` and nothing else. -/
theorem jumpTo_frame (s : State) (q : Reg) : SameRegs s (s.jumpTo q) ∧ SameMem s (s.jumpTo q) ∧
    SameFlags s (s.jumpTo q) ∧ SameControl s (s.jumpTo q) ∧ SameEvents s (s.jumpTo q) :=
  ⟨fun _ => rfl, fun _ => rfl, ⟨rfl, rfl⟩, ⟨rfl, rfl⟩, rfl⟩

/-- So does the advance of a jump that is not taken. -/
theorem advance_frame (s : State) (n : Nat) : SameRegs s (s.advance n) ∧ SameMem s (s.advance n) ∧
    SameFlags s (s.advance n) ∧ SameControl s (s.advance n) ∧ SameEvents s (s.advance n) :=
  ⟨fun _ => rfl, fun _ => rfl, ⟨rfl, rfl⟩, ⟨rfl, rfl⟩, rfl⟩

/-- Settles O40: the jump, and the two general aborts. -/
theorem jmpJumpsToRegister : Obligations.JmpJumpsToRegister := by
  refine ⟨fun _ => rfl, fun s q => ?_, fun s r hr => ?_, fun s hr hop hpc => ?_⟩
  · exact ⟨_, exec_of_completes ⟨q, regOf_regByte q, rfl⟩, rfl, jumpTo_frame s q⟩
  · exact exec_aborts_of_illegal (i := .jmp r) (legalReg_of_ge hr) rfl
  · exact step_aborts_of_length 2 hr hop rfl (by omega)

/-- Settles O41: with `FLV` set, the two values of Equal; with `FLV` clear, JEQ's own check fails. -/
theorem jeqJumpsWhenEqual : Obligations.JeqJumpsWhenEqual := by
  refine ⟨fun s q hflv => ⟨_, exec_of_completes ⟨q, regOf_regByte q, hflv, rfl⟩, ?_⟩, fun s q hflv => ?_⟩
  · cases s.flags.equal with
    | true => exact ⟨rfl, jumpTo_frame s q⟩
    | false => exact ⟨rfl, advance_frame s 2⟩
  · exact exec_aborts_of_checksFail (i := .jeq (regByte q)) ⟨q, regOf_regByte q, hflv, rfl⟩

/-- Settles O42: as for JEQ, with the two values of Equal exchanged. -/
theorem jneJumpsWhenNotEqual : Obligations.JneJumpsWhenNotEqual := by
  refine ⟨fun s q hflv => ⟨_, exec_of_completes ⟨q, regOf_regByte q, hflv, rfl⟩, ?_⟩, fun s q hflv => ?_⟩
  · cases s.flags.equal with
    | true => exact ⟨rfl, advance_frame s 2⟩
    | false => exact ⟨rfl, jumpTo_frame s q⟩
  · exact exec_aborts_of_checksFail (i := .jne (regByte q)) ⟨q, regOf_regByte q, hflv, rfl⟩

/-- Settles O43: one event of OUT is appended, which DIAG does not see. -/
theorem prnEmitsRegister : Obligations.PrnEmitsRegister := by
  intro s q
  exact ⟨_, exec_of_completes ⟨q, regOf_regByte q, rfl⟩, rfl, by simp [State.out, Event.outByte],
    by simp [State.diag, Event.onDiag], rfl, fun _ => rfl, fun _ => rfl, ⟨rfl, rfl⟩, ⟨rfl, rfl⟩⟩

/-- Settles O44: HLT writes the status alone. -/
theorem hltHalts : Obligations.HltHalts := by
  intro s
  exact ⟨_, exec_of_completes (i := .hlt) rfl, rfl, rfl, rfl, fun _ => rfl, fun _ => rfl, ⟨rfl, rfl⟩, rfl⟩

/-- Settles O45: the default arm emits its report and advances by one. -/
theorem unrecognisedByteIsSkipped : Obligations.UnrecognisedByteIsSkipped := by
  intro s b
  exact ⟨_, exec_of_completes (i := .unrecognised b) rfl, rfl, rfl, fun _ => rfl, fun _ => rfl, ⟨rfl, rfl⟩, ⟨rfl, rfl⟩⟩

/-- Settles O49: ADD is a write of the exact sum, whose two cases are those of the statement. -/
theorem aluAddAndUnsupported : Obligations.AluAddAndUnsupported := by
  refine ⟨fun a b s => ?_, fun _ _ _ _ => rfl⟩
  obtain ⟨h, e⟩ | ⟨h, e⟩ := s.aluWrite_cases a ((s.reg a).toNat + (s.reg b).toNat)
  · rw [if_pos h]
    exact e
  · rw [if_neg h]
    exact ⟨_, e, by simp⟩

end Sys2Proof.Claims
end

section
/-! The digits the host prints (spec/44_output_and_halt.md R141): their characters, their value and their first one, by
induction on the number of digits that `digitsInto` may write. -/

namespace Sys2Proof.Machine

open Sys2Proof.Claims

variable {hc : Config.HexCase} {base : Nat}

/-- What one more digit character makes of a value. -/
def digitStep (base n : Nat) (c : Char) : Nat :=
  n * base + (if c.toNat ≤ 57 then c.toNat - 48 else if c.toNat ≤ 70 then c.toNat - 55 else c.toNat - 87)

theorem digitsValue_eq_foldl (base : Nat) (l : List Char) : digitsValue base l = l.foldl (digitStep base) 0 := rfl

/-- A digit character has the value of its digit. -/
theorem digitStep_digitChar {d : Nat} (hd : d < 16) (n : Nat) : digitStep base n (digitChar hc d) = n * base + d := by
  have hval : ∀ d : Fin 16, digitStep 0 0 (digitChar hc d) = d := by cases hc <;> decide
  have h := hval ⟨d, hd⟩
  simp only [digitStep, Nat.mul_zero, Nat.zero_add] at h
  rw [digitStep, h]

/-- It stands at the place of its digit in the list of the sixteen. -/
theorem digitChar_mem_take {d : Nat} (hd : d < base) (hbase : base ≤ 16) :
    digitChar hc d ∈ (digitChars hc).take base := by
  have hplace : ∀ d : Fin 16, (digitChars hc)[d.val]? = some (digitChar hc d) := by cases hc <;> decide
  exact List.mem_of_getElem? (List.getElem?_take_of_lt hd ▸ hplace ⟨d, Nat.lt_of_lt_of_le hd hbase⟩)

/-- Only the digit 0 is printed as `0`. -/
theorem digitChar_eq_zero {d : Nat} (hd : d < 16) (h : digitChar hc d = '0') : d = 0 := by
  have honly : ∀ d : Fin 16, digitChar hc d = '0' → d = 0 := by cases hc <;> decide
  exact congrArg Fin.val (honly ⟨d, hd⟩ h)

section
variable (h2 : 2 ≤ base) (h16 : base ≤ 16)
include h2 h16

theorem digitsInto_mem : ∀ (fuel n : Nat) (acc : List Char), ∀ c ∈ digitsInto hc base fuel n acc,
    c ∈ (digitChars hc).take base ∨ c ∈ acc
  | 0, _, _, _, hmem => .inr hmem
  | fuel + 1, n, acc, c, hmem => by
    have hdigit := digitChar_mem_take (hc := hc) (Nat.mod_lt n (by omega : 0 < base)) h16
    have hfirst : c ∈ digitChar hc (n % base) :: acc → c ∈ (digitChars hc).take base ∨ c ∈ acc := fun h =>
      (List.mem_cons.mp h).imp (fun e => by rw [e]; exact hdigit) id
    rw [digitsInto] at hmem
    split at hmem
    · exact hfirst hmem
    · exact (digitsInto_mem fuel _ _ c hmem).elim .inl hfirst

/-- Read after the digits of `n`, the characters of `acc` continue from the value `n`. -/
theorem digitsInto_value : ∀ (fuel n : Nat) (acc : List Char), n < base ^ fuel →
    (digitsInto hc base fuel n acc).foldl (digitStep base) 0 = acc.foldl (digitStep base) n
  | 0, n, acc, hn => by
    obtain rfl : n = 0 := Nat.lt_one_iff.mp hn
    rfl
  | fuel + 1, n, acc, hn => by
    have hdigit : n % base < 16 := Nat.lt_of_lt_of_le (Nat.mod_lt n (by omega)) h16
    rw [digitsInto]
    split
    · rw [List.foldl_cons, digitStep_digitChar hdigit, Nat.zero_mul, Nat.zero_add, Nat.mod_eq_of_lt ‹_›]
    · have hq : n / base < base ^ fuel := Nat.div_lt_of_lt_mul (Nat.pow_succ' ▸ hn)
      rw [digitsInto_value fuel _ _ hq, List.foldl_cons, digitStep_digitChar hdigit, Nat.div_add_mod']

/-- The first digit is 0 only where it is the only one, and then the number is 0. -/
theorem digitsInto_head : ∀ (fuel n : Nat) (acc : List Char), n < base ^ (fuel + 1) →
    ∃ d rest, digitsInto hc base (fuel + 1) n acc = digitChar hc d :: rest ∧ d < base ∧ (d = 0 → n = 0 ∧ rest = acc)
  | fuel, n, acc, hn => by
    rw [digitsInto]
    split
    · exact ⟨n % base, acc, rfl, Nat.mod_lt n (by omega), fun h => ⟨Nat.mod_eq_of_lt ‹_› ▸ h, rfl⟩⟩
    · rename_i hge
      cases fuel with
      | zero => exact absurd (Nat.pow_one base ▸ hn) hge
      | succ fuel =>
        obtain ⟨d, rest, he, hd, hzero⟩ := digitsInto_head fuel (n / base) (digitChar hc (n % base) :: acc)
          (Nat.div_lt_of_lt_mul (Nat.pow_succ' ▸ hn))
        have hpos : 0 < n / base := Nat.div_pos (Nat.not_lt.mp hge) (by omega)
        exact ⟨d, rest, he, hd, fun h => absurd (hzero h).1 (Nat.ne_of_gt hpos)⟩

end

/-- Eight digits are enough for a byte in base 2 and up. -/
theorem toNat_lt_pow_eight (h2 : 2 ≤ base) (v : Byte) : v.toNat < base ^ 8 :=
  Nat.lt_of_lt_of_le v.isLt (Nat.pow_le_pow_left h2 8)

end Sys2Proof.Machine

namespace Sys2Proof.Claims

open Sys2Proof.Machine

/-- Settles O50: the three facts about `digitsInto`, of a byte and at most eight digits. -/
theorem printedDigitsAreTheByte : Obligations.PrintedDigitsAreTheByte := by
  refine ⟨fun hc v base hbase => ?_, fun _ => rfl⟩
  obtain ⟨h2, h16⟩ : 2 ≤ base ∧ base ≤ 16 := by fin_cases hbase <;> decide
  have hlt := toNat_lt_pow_eight h2 v
  obtain ⟨d, rest, he, hd, hzero⟩ := digitsInto_head (hc := hc) h2 h16 7 v.toNat [] hlt
  refine ⟨fun c hmem => ?_, ?_, digitsInto_value h2 h16 8 v.toNat [] hlt, fun hhead => ?_⟩
  · exact (digitsInto_mem h2 h16 8 v.toNat [] c hmem).resolve_right List.not_mem_nil
  · rw [digits, he]
    exact List.cons_ne_nil _ _
  · rw [digits, he] at hhead ⊢
    have hd0 : digitChar hc d = '0' := Option.some.inj hhead
    rw [hd0, (hzero (digitChar_eq_zero (Nat.lt_of_lt_of_le hd h16) hd0)).2]

/-- Settles O1: each row of the table, of the one state after reset. -/
theorem resetLeavesTabledValues : Obligations.ResetLeavesTabledValues :=
  ⟨by decide, rfl, rfl, rfl, fun _ ha => memRead_of_lt (Nat.lt_succ_of_le ha), rfl, rfl, rfl, rfl⟩

end Sys2Proof.Claims
end

section
/-! The lines of an image in characters (spec/70_reset_and_hazards.md R187 to R189): what is left of a line, and when
that is nothing or a literal. -/

namespace Sys2Proof.Machine

open Sys2Proof.Claims

theorem isBlank_iff {c : Char} : isBlank c = true ↔ Blank c := by simp [isBlank, Blank, or_assoc]

theorem hash_not_blank : ¬ Blank '#' := by simp [Blank]

theorem hash_not_mem_of_allBlank {l : List Char} (h : AllBlank l) : '#' ∉ l := fun hmem => hash_not_blank (h _ hmem)

/-! ### Comments -/

/-- What stands before a comment and has no `#` is what is kept (R187). -/
theorem dropComment_append {before comment : List Char} (hb : '#' ∉ before) (hc : Comment comment) :
    dropComment (before ++ comment) = before := by
  have hkeep : ∀ c ∈ before, (c != '#') = true := by
    rintro c hmem
    simpa using fun e : c = '#' => hb (e ▸ hmem)
  have hstop : comment.takeWhile (fun c => c != '#') = [] := by
    rcases hc with rfl | hhead
    · rfl
    · obtain ⟨rest, rfl⟩ := List.head?_eq_some_iff.mp hhead
      rfl
  rw [dropComment, List.takeWhile_append_of_pos hkeep, hstop, List.append_nil]

/-- Every line is what is kept of it and a comment. -/
theorem exists_comment (line : List Char) : ∃ comment, Comment comment ∧ line = dropComment line ++ comment := by
  refine ⟨line.dropWhile (fun c => c != '#'), ?_, List.takeWhile_append_dropWhile.symm⟩
  have hhead := List.head?_dropWhile_not (fun c => c != '#') line
  unfold Comment
  cases h : line.dropWhile (fun c => c != '#') with
  | nil => exact .inl rfl
  | cons c cs =>
    rw [h] at hhead
    simp only [List.head?_cons, bne_eq_false_iff_eq] at hhead
    exact .inr (congrArg some hhead)

/-! ### White space -/

theorem trim_eq_rdropWhile (l : List Char) : trim l = (l.dropWhile isBlank).rdropWhile isBlank := rfl

/-- Nothing is left exactly of white space (R188). -/
theorem trim_eq_nil_iff {l : List Char} : trim l = [] ↔ AllBlank l := by
  rw [trim_eq_rdropWhile, List.rdropWhile_eq_nil_iff]
  constructor
  · intro h c hmem
    rw [← List.takeWhile_append_dropWhile (p := isBlank) (l := l), List.mem_append] at hmem
    exact isBlank_iff.mp (hmem.elim List.mem_takeWhile_imp (h c))
  · exact fun h c hmem => isBlank_iff.mpr (h c ((List.dropWhile_suffix isBlank).subset hmem))

/-- White space goes up to the first other character. -/
theorem dropWhile_isBlank_append {before l : List Char} (hb : AllBlank before) (hl : ∀ c ∈ l.head?, ¬ Blank c) :
    (before ++ l).dropWhile isBlank = l := by
  rw [List.dropWhile_append_of_pos fun c hmem => isBlank_iff.mpr (hb c hmem)]
  cases l with
  | nil => rfl
  | cons c cs => exact List.dropWhile_cons_of_neg fun h => hl c rfl (isBlank_iff.mp h)

/-- Of white space, a body that neither begins nor ends with it, and white space, the body is left (R188). -/
theorem trim_append {before body after : List Char} (hb : AllBlank before) (ha : AllBlank after)
    (hfirst : ∀ c ∈ body.head?, ¬ Blank c) (hlast : ∀ c ∈ body.getLast?, ¬ Blank c) :
    trim (before ++ body ++ after) = body := by
  cases body with
  | nil =>
    rw [trim_eq_nil_iff, List.append_nil]
    exact fun c hmem => (List.mem_append.mp hmem).elim (hb c) (ha c)
  | cons c cs =>
    have hleft : (before ++ (c :: cs ++ after)).dropWhile isBlank = c :: cs ++ after :=
      dropWhile_isBlank_append hb hfirst
    have hright : (after.reverse ++ (c :: cs).reverse).dropWhile isBlank = (c :: cs).reverse :=
      dropWhile_isBlank_append (fun d hmem => ha d (List.mem_reverse.mp hmem)) (by rwa [List.head?_reverse])
    rw [trim, List.append_assoc, hleft, List.reverse_append, hright, List.reverse_reverse]

/-- Every text is what is left of it between white space. -/
theorem exists_trim (l : List Char) :
    ∃ before after, AllBlank before ∧ AllBlank after ∧ l = before ++ trim l ++ after := by
  refine ⟨l.takeWhile isBlank, (l.dropWhile isBlank).rtakeWhile isBlank,
    fun c hmem => isBlank_iff.mp (List.mem_takeWhile_imp hmem),
    fun c hmem => isBlank_iff.mp (List.mem_rtakeWhile_imp hmem), ?_⟩
  rw [trim_eq_rdropWhile, List.append_assoc, List.rdropWhile_append_rtakeWhile, List.takeWhile_append_dropWhile]

/-! ### What is left of a line -/

theorem content_append_eq_nil_iff {before comment : List Char} (hb : '#' ∉ before) (hc : Comment comment) :
    content (before ++ comment) = [] ↔ AllBlank before := by
  rw [content, dropComment_append hb hc, trim_eq_nil_iff]

theorem content_append {before body after comment : List Char} (hb : AllBlank before) (ha : AllBlank after)
    (hc : Comment comment) (hbody : '#' ∉ body) (hfirst : ∀ c ∈ body.head?, ¬ Blank c)
    (hlast : ∀ c ∈ body.getLast?, ¬ Blank c) : content (before ++ body ++ after ++ comment) = body := by
  have hno : '#' ∉ before ++ body ++ after := by
    simp [hash_not_mem_of_allBlank hb, hash_not_mem_of_allBlank ha, hbody]
  rw [content, dropComment_append hno hc, trim_append hb ha hfirst hlast]

/-- Nothing is left exactly of the lines that are skipped (R188). -/
theorem content_eq_nil_iff {line : List Char} : content line = [] ↔ SkippedLine line := by
  constructor
  · intro h
    obtain ⟨comment, hc, he⟩ := exists_comment line
    exact ⟨dropComment line, comment, trim_eq_nil_iff.mp h, hc, he⟩
  · rintro ⟨blanks, comment, hb, hc, rfl⟩
    exact (content_append_eq_nil_iff (hash_not_mem_of_allBlank hb) hc).mpr hb

/-! ### Literals -/

theorem mem_literal {b : Byte} {c : Char} (h : c ∈ literal b) : c = '0' ∨ c = '1' := by
  obtain ⟨k, -, rfl⟩ := List.mem_map.mp h
  split
  · exact .inr rfl
  · exact .inl rfl

theorem not_blank_of_mem_literal {b : Byte} {c : Char} (h : c ∈ literal b) : ¬ Blank c := by
  rcases mem_literal h with rfl | rfl <;> simp [Blank]

theorem literal_length (b : Byte) : (literal b).length = 8 := rfl

/-- A literal is left exactly of the lines that hold it (R189). -/
theorem content_eq_literal_iff {line : List Char} {b : Byte} : content line = literal b ↔ LiteralLine line b := by
  constructor
  · intro h
    obtain ⟨comment, hc, he⟩ := exists_comment line
    obtain ⟨before, after, hb, ha, htrim⟩ := exists_trim (dropComment line)
    refine ⟨before, after, comment, hb, ha, hc, ?_⟩
    rw [← h, content, ← htrim, ← he]
  · rintro ⟨before, after, comment, hb, ha, hc, rfl⟩
    exact content_append hb ha hc (fun hmem => by rcases mem_literal hmem with h | h <;> cases h)
      (fun c hmem => not_blank_of_mem_literal (List.mem_of_mem_head? hmem))
      (fun c hmem => not_blank_of_mem_literal (List.mem_of_mem_getLast? hmem))

theorem digitValue_eq_some {c : Char} {d : Nat} (h : digitValue c = some d) :
    (c = '0' ∧ d = 0) ∨ (c = '1' ∧ d = 1) := by
  unfold digitValue at h
  split at h
  · exact .inl ⟨‹_›, (Option.some.inj h).symm⟩
  · split at h
    · exact .inr ⟨‹_›, (Option.some.inj h).symm⟩
    · cases h

/-- A string of digits that has a value begins with a digit, and goes on from that digit's value. -/
theorem binaryValue_cons {acc n : Nat} {c : Char} {cs : List Char} (h : binaryValue acc (c :: cs) = some n) :
    ∃ d, ((c = '0' ∧ d = 0) ∨ (c = '1' ∧ d = 1)) ∧ binaryValue (2 * acc + d) cs = some n := by
  rw [binaryValue] at h
  split at h
  · cases h
  · exact ⟨_, digitValue_eq_some ‹_›, h⟩

/-- The value of a string of digits is below the power of two of its length. -/
theorem binaryValue_lt : ∀ {l : List Char} {acc n : Nat}, binaryValue acc l = some n → n < (acc + 1) * 2 ^ l.length
  | [], acc, n, h => by
    rw [← Option.some.inj h]
    simp
  | c :: cs, acc, n, h => by
    obtain ⟨d, hd, h'⟩ := binaryValue_cons h
    calc n < (2 * acc + d + 1) * 2 ^ cs.length := binaryValue_lt h'
      _ ≤ (2 * (acc + 1)) * 2 ^ cs.length := Nat.mul_le_mul_right _ (by omega)
      _ = (acc + 1) * 2 ^ (cs.length + 1) := by rw [Nat.pow_succ']; ring

/-- Of two strings of as many digits, one value makes one string (R189). -/
theorem binaryValue_injective : ∀ {l l' : List Char} {acc acc' n : Nat}, l.length = l'.length →
    binaryValue acc l = some n → binaryValue acc' l' = some n → acc = acc' ∧ l = l'
  | [], [], _, _, _, _, h, h' => ⟨Option.some.inj (h.trans h'.symm), rfl⟩
  | c :: cs, c' :: cs', acc, acc', n, hlen, h, h' => by
    obtain ⟨d, hd, ht⟩ := binaryValue_cons h
    obtain ⟨d', hd', ht'⟩ := binaryValue_cons h'
    obtain ⟨hacc, rfl⟩ := binaryValue_injective (Nat.succ.inj hlen) ht ht'
    obtain ⟨rfl, rfl⟩ | ⟨rfl, rfl⟩ := hd <;> obtain ⟨rfl, rfl⟩ | ⟨rfl, rfl⟩ := hd'
    · exact ⟨by omega, rfl⟩
    · omega
    · omega
    · exact ⟨by omega, rfl⟩

/-- The digits of a byte parse as that byte. -/
theorem parseLiteral_literal : ∀ b : Byte, parseLiteral (literal b) = some b := by decide

/-- What parses as a byte is eight digits, whose value is the byte's. -/
theorem parseLiteral_eq_some {l : List Char} {b : Byte} (h : parseLiteral l = some b) :
    l.length = 8 ∧ binaryValue 0 l = some b.toNat := by
  unfold parseLiteral at h
  split at h
  · rename_i hlen
    obtain ⟨n, hn, rfl⟩ := Option.map_eq_some_iff.mp h
    have hlt := binaryValue_lt hn
    rw [hlen] at hlt
    exact ⟨hlen, by rw [hn, BitVec.toNat_ofNat, Nat.mod_eq_of_lt (by omega)]⟩
  · cases h

/-- A literal parses as its own byte and as no other. -/
theorem parseLiteral_eq_some_iff {l : List Char} {b : Byte} : parseLiteral l = some b ↔ l = literal b := by
  refine ⟨fun h => ?_, fun h => h ▸ parseLiteral_literal b⟩
  obtain ⟨hlen, hval⟩ := parseLiteral_eq_some h
  obtain ⟨hlen', hval'⟩ := parseLiteral_eq_some (parseLiteral_literal b)
  exact (binaryValue_injective (hlen.trans hlen'.symm) hval hval').2

end Sys2Proof.Machine

namespace Sys2Proof.Claims

open Sys2Proof.Machine

/-- Settles O8: eight digits have one value, and the digits of the byte have the byte's. -/
theorem literalsAreEightBinaryDigits : Obligations.LiteralsAreEightBinaryDigits := fun _ _ => parseLiteral_eq_some_iff

/-- Settles O51: the comment is cut off first, then white space on either side. -/
theorem contentOfALine : Obligations.ContentOfALine :=
  ⟨fun _ _ hb hc => content_append_eq_nil_iff hb hc,
    fun _ _ _ _ hb ha hc hbody hfirst hlast => content_append hb ha hc hbody hfirst hlast⟩

end Sys2Proof.Claims
end

section
/-! The lines of a text and the bytes they give (spec/70_reset_and_hazards.md R186, R188 to R193): splitting at
newlines, the retained lines, and the bytes or the error of a list of contents. -/

namespace Sys2Proof.Machine

open Sys2Proof.Claims

/-! ### Splitting -/

theorem splitLines_newline (cs : List Char) : splitLines ('\n' :: cs) = [] :: splitLines cs := rfl

theorem splitLines_ne_nil : ∀ cs : List Char, splitLines cs ≠ []
  | [] => List.cons_ne_nil _ _
  | c :: cs => by
    unfold splitLines
    split
    · exact List.cons_ne_nil _ _
    · split <;> exact List.cons_ne_nil _ _

/-- Any other character goes to the front of the first line. -/
theorem splitLines_cons {c : Char} {cs l : List Char} {ls : List (List Char)} (hc : c ≠ '\n')
    (h : splitLines cs = l :: ls) : splitLines (c :: cs) = (c :: l) :: ls := by
  rw [splitLines, if_neg hc, h]

/-- A newline separates the lines before it from those after it (R186). -/
theorem splitLines_append_newline (after : List Char) : ∀ before : List Char,
    splitLines (before ++ '\n' :: after) = splitLines before ++ splitLines after
  | [] => rfl
  | c :: cs => by
    have ih := splitLines_append_newline after cs
    by_cases hc : c = '\n'
    · subst hc
      rw [List.cons_append, splitLines_newline, splitLines_newline, ih, List.cons_append]
    · obtain ⟨l, ls, hl⟩ := List.exists_cons_of_ne_nil (splitLines_ne_nil cs)
      rw [hl, List.cons_append] at ih
      rw [List.cons_append, splitLines_cons hc ih, splitLines_cons hc hl, List.cons_append]

/-- A text without a newline is one line. -/
theorem splitLines_of_no_newline : ∀ {line : List Char}, '\n' ∉ line → splitLines line = [line]
  | [], _ => rfl
  | c :: cs, h => by
    rw [List.mem_cons, not_or] at h
    exact splitLines_cons (Ne.symm h.1) (splitLines_of_no_newline h.2)

/-- The lines of a text are its lines: it is read as no other list of them. -/
theorem splitLines_of_textOf : ∀ {lines : List (List Char)} {cs : List Char}, TextOf lines cs → lines ≠ [] →
    splitLines cs = lines
  | [], _, _, h => absurd rfl h
  | [l], _, ⟨hno, rfl⟩, _ => by
    rw [List.intercalate_singleton]
    exact splitLines_of_no_newline (hno l (by simp))
  | l :: l' :: ls, _, ⟨hno, rfl⟩, _ => by
    have hrest : splitLines (List.intercalate ['\n'] (l' :: ls)) = l' :: ls :=
      splitLines_of_textOf ⟨fun m hm => hno m (List.mem_cons_of_mem l hm), rfl⟩ (List.cons_ne_nil _ _)
    rw [List.intercalate_cons_cons, List.append_assoc, List.singleton_append, splitLines_append_newline,
      splitLines_of_no_newline (hno l (by simp)), hrest, List.singleton_append]

/-- A text is the text of its lines. -/
theorem textOf_splitLines : ∀ cs : List Char, TextOf (splitLines cs) cs
  | [] => ⟨by simp [splitLines], rfl⟩
  | c :: cs => by
    obtain ⟨hno, htext⟩ := textOf_splitLines cs
    obtain ⟨l, ls, hl⟩ := List.exists_cons_of_ne_nil (splitLines_ne_nil cs)
    rw [hl] at hno htext
    by_cases hc : c = '\n'
    · subst hc
      rw [splitLines_newline, hl]
      refine ⟨fun m hm => (List.mem_cons.mp hm).elim (fun e => by simp [e]) (hno m), ?_⟩
      rw [List.intercalate_cons_cons, ← htext]
      rfl
    · rw [splitLines_cons hc hl]
      refine ⟨fun m hm => ?_, ?_⟩
      · rcases List.mem_cons.mp hm with rfl | hm'
        · exact fun h => (List.mem_cons.mp h).elim (fun e => hc e.symm) (hno l (by simp))
        · exact hno m (List.mem_cons_of_mem l hm')
      · cases ls with
        | nil => simpa [List.intercalate_singleton] using htext
        | cons l' ls => simpa [List.intercalate_cons_cons] using htext

/-! ### Retained lines -/

theorem retained_append (ls ms : List (List Char)) : retained (ls ++ ms) = retained ls ++ retained ms := by
  simp [retained]

theorem retained_cons_of_skipped {line : List Char} (h : SkippedLine line) (ls : List (List Char)) :
    retained (line :: ls) = retained ls := by
  simp [retained, content_eq_nil_iff.mpr h]

theorem retained_cons_of_not_skipped {line : List Char} (h : ¬ SkippedLine line) (ls : List (List Char)) :
    retained (line :: ls) = content line :: retained ls := by
  rw [← content_eq_nil_iff] at h
  simp [retained, h]

theorem not_skipped_of_literalLine {line : List Char} {b : Byte} (h : LiteralLine line b) : ¬ SkippedLine line := by
  rw [← content_eq_nil_iff, content_eq_literal_iff.mpr h]
  exact List.cons_ne_nil _ _

/-! ### The bytes of the contents -/

theorem retained_nil : retained [] = [] := rfl

theorem lineBytes_nil (room : Nat) : lineBytes room [] = .ok [] := by rw [lineBytes]

theorem lineBytes_no_room (l : List Char) (ls : List (List Char)) : lineBytes 0 (l :: ls) = .error .overflow := rfl

theorem lineBytes_malformed {l : List Char} (h : parseLiteral l = none) (room : Nat) (ls : List (List Char)) :
    lineBytes (room + 1) (l :: ls) = .error .parse := by
  simp [lineBytes, h]

theorem lineBytes_literal {l : List Char} {b : Byte} (h : parseLiteral l = some b) (room : Nat)
    (ls : List (List Char)) : lineBytes (room + 1) (l :: ls) = (lineBytes room ls).map (b :: ·) := by
  rw [lineBytes, h]
  cases lineBytes room ls <;> rfl

/-- Lines that give bytes use up as much room, and the rest decides. -/
theorem lineBytes_of_linesGive {lines : List (List Char)} {bs : List Byte} (h : LinesGive lines bs) (room : Nat)
    (rest : List (List Char)) :
    lineBytes (bs.length + room) (retained lines ++ rest) = (lineBytes room rest).map (bs ++ ·) := by
  induction h with
  | nothing =>
    rw [List.length_nil, Nat.zero_add, retained_nil, List.nil_append]
    cases lineBytes room rest <;> rfl
  | skip hline _ ih => rw [retained_cons_of_skipped hline, ih]
  | @byte line lines b bytes hline _ ih =>
    have hb : parseLiteral (content line) = some b := parseLiteral_eq_some_iff.mpr (content_eq_literal_iff.mpr hline)
    rw [retained_cons_of_not_skipped (not_skipped_of_literalLine hline), List.length_cons, Nat.add_right_comm,
      List.cons_append, lineBytes_literal hb, ih]
    cases lineBytes room rest <;> rfl

/-- Contents with no load error give their bytes one by one. -/
theorem lineBytes_cons_ok {room : Nat} {l : List Char} {ls : List (List Char)} {bs : List Byte}
    (h : lineBytes room (l :: ls) = .ok bs) :
    ∃ room' b bs', room = room' + 1 ∧ parseLiteral l = some b ∧ lineBytes room' ls = .ok bs' ∧ bs = b :: bs' := by
  cases room with
  | zero => cases h
  | succ room' =>
    cases hp : parseLiteral l with
    | none => cases (lineBytes_malformed hp room' ls).symm.trans h
    | some b =>
      rw [lineBytes_literal hp] at h
      cases hr : lineBytes room' ls with
      | error c => rw [hr] at h; cases h
      | ok bs' => rw [hr] at h; cases h; exact ⟨room', b, bs', rfl, rfl, hr, rfl⟩

/-- Lines with no load error give their bytes, within the room. -/
theorem linesGive_of_lineBytes : ∀ {lines : List (List Char)} {room : Nat} {bs : List Byte},
    lineBytes room (retained lines) = .ok bs → bs.length ≤ room ∧ LinesGive lines bs
  | [], room, _, h => by
    rw [retained_nil, lineBytes_nil] at h
    cases h
    exact ⟨Nat.zero_le _, .nothing⟩
  | line :: lines, room, bs, h => by
    by_cases hskip : SkippedLine line
    · rw [retained_cons_of_skipped hskip] at h
      obtain ⟨hlen, hgive⟩ := linesGive_of_lineBytes h
      exact ⟨hlen, .skip hskip hgive⟩
    · rw [retained_cons_of_not_skipped hskip] at h
      obtain ⟨room', b, bs', rfl, hb, hrest, rfl⟩ := lineBytes_cons_ok h
      obtain ⟨hlen, hgive⟩ := linesGive_of_lineBytes hrest
      exact ⟨Nat.succ_le_succ hlen, .byte (content_eq_literal_iff.mp (parseLiteral_eq_some_iff.mp hb)) hgive⟩

/-! ### Images -/

theorem imageBytes_text (cs : List Char) :
    imageBytes (.text cs) = lineBytes 256 (retained (splitLines cs)) := rfl

/-- Which bytes an image gives: those of its lines, at most 256 (R188 to R193). -/
theorem imageBytes_eq_ok_iff {cs : List Char} {bs : List Byte} :
    imageBytes (.text cs) = .ok bs ↔ bs.length ≤ 256 ∧ LinesGive (splitLines cs) bs := by
  rw [imageBytes_text]
  refine ⟨linesGive_of_lineBytes, fun ⟨hlen, hgive⟩ => ?_⟩
  have h := lineBytes_of_linesGive hgive (256 - bs.length) []
  rw [Nat.add_sub_cancel' hlen, List.append_nil, lineBytes_nil] at h
  exact h.trans (congrArg Except.ok (List.append_nil bs))

/-- The lines of a text give the bytes that any reading of it as lines gives; the empty text is also no line at all. -/
theorem linesGive_splitLines {lines : List (List Char)} {cs : List Char} {bs : List Byte} (htext : TextOf lines cs)
    (h : LinesGive lines bs) : LinesGive (splitLines cs) bs := by
  cases lines with
  | nil =>
    obtain ⟨-, rfl⟩ := htext
    exact .skip (content_eq_nil_iff.mp rfl) h
  | cons l ls => rwa [splitLines_of_textOf htext (List.cons_ne_nil l ls)]

/-- The lines of `imageText`: one literal each, and an empty one after the last newline. -/
theorem splitLines_imageText : ∀ bs : List Byte, splitLines (imageText bs) = bs.map literal ++ [[]]
  | [] => rfl
  | b :: bs => by
    have hno : '\n' ∉ literal b := fun h => by rcases mem_literal h with h' | h' <;> cases h'
    have himage : imageText (b :: bs) = literal b ++ '\n' :: imageText bs := by simp [imageText]
    rw [himage, splitLines_append_newline, splitLines_of_no_newline hno, splitLines_imageText bs]
    rfl

/-- A literal alone is a line that holds it. -/
theorem literalLine_literal (b : Byte) : LiteralLine (literal b) b :=
  ⟨[], [], [], List.forall_mem_nil _, List.forall_mem_nil _, .inl rfl, by simp⟩

theorem linesGive_imageText : ∀ bs : List Byte, LinesGive (bs.map literal ++ [[]]) bs
  | [] => .skip (content_eq_nil_iff.mp rfl) .nothing
  | b :: bs => .byte (literalLine_literal b) (linesGive_imageText bs)

end Sys2Proof.Machine

namespace Sys2Proof.Claims

open Sys2Proof.Machine

/-- Settles O7: an image gives the bytes of its lines, and its lines are the only ones it is the text of. -/
theorem goodImagesExactly : Obligations.GoodImagesExactly := by
  refine ⟨rfl, fun cs bs => imageBytes_eq_ok_iff.trans (and_congr_right fun _ => ⟨fun h => ?_, ?_⟩)⟩
  · exact ⟨splitLines cs, textOf_splitLines cs, h⟩
  · rintro ⟨lines, htext, h⟩
    exact linesGive_splitLines htext h

/-- Settles O9: the line stands alone among the lines, and it is not retained. -/
theorem skippedLinesUseNoAddress : Obligations.SkippedLinesUseNoAddress := by
  intro before line after hno hskip
  have hline : splitLines line = [line] := splitLines_of_no_newline hno
  have hnothing : retained [line] = [] := retained_cons_of_skipped hskip []
  simp only [imageBytes_text, splitLines_append_newline, hline, retained_append, hnothing, List.nil_append,
    List.append_nil]
  exact ⟨trivial, trivial, trivial, rfl⟩

/-- Settles O10: the lines of the image give the bytes. -/
theorem imageTextRoundTrip : Obligations.ImageTextRoundTrip := by
  intro bs hlen
  rw [imageBytes_eq_ok_iff, splitLines_imageText]
  exact ⟨hlen, linesGive_imageText bs⟩

/-- Settles O52: the lines before use up their room, and the next content decides. -/
theorem loadErrorsByCause : Obligations.LoadErrorsByCause := by
  intro before line after cs bs htext hgive hskip
  have himage : ∀ room, bs.length + room = 256 →
      imageBytes (.text cs) = (lineBytes room (content line :: retained after)).map (bs ++ ·) := by
    intro room hroom
    rw [imageBytes_text, splitLines_of_textOf htext (by simp), retained_append, retained_cons_of_not_skipped hskip,
      ← hroom, lineBytes_of_linesGive hgive]
  constructor
  · intro hlen hbad
    have hnone : parseLiteral (content line) = none := by
      rw [Option.eq_none_iff_forall_ne_some]
      exact fun b hb => hbad b (content_eq_literal_iff.mp (parseLiteral_eq_some_iff.mp hb))
    rw [himage (255 - bs.length + 1) (by omega), lineBytes_malformed hnone]
    rfl
  · intro hlen
    rw [himage 0 hlen, lineBytes_no_room]
    rfl

end Sys2Proof.Claims
end

section
/-! The state a load leaves (spec/70_reset_and_hazards.md R190 to R194): the placed bytes, or the reset state with one
event. -/

namespace Sys2Proof.Machine

open Sys2Proof.Claims

/-- What a cell holds after bytes were placed from `a` on: its own byte inside them, and what it held outside. -/
theorem peek_placeBytes : ∀ (bs : List Byte) {m : Memory} {a : Nat} (c : Nat), m.wf = true → a + bs.length ≤ 256 →
    (placeBytes m a bs).peek c = if a ≤ c then (bs[c - a]?).getD (m.peek c) else m.peek c
  | [], _, _, _, _, _ => by simp [placeBytes]
  | b :: bs, m, a, c, hm, hlen => by
    rw [List.length_cons] at hlen
    have ha : a < 256 := by omega
    rw [placeBytes, memWrite_of_lt ha, Option.getD_some,
      peek_placeBytes bs c (Memory.poke_wf ha hm) (by omega), Memory.peek_poke hm]
    rcases Nat.lt_trichotomy c a with h | rfl | h
    · rw [if_neg (by omega), if_neg (by omega), if_neg (by omega)]
    · simp
    · obtain ⟨k, rfl⟩ : ∃ k, c = a + 1 + k := ⟨c - (a + 1), by omega⟩
      rw [if_pos (by omega), if_neg (by omega), if_pos (by omega), show a + 1 + k - (a + 1) = k by omega,
        show a + 1 + k - a = k + 1 by omega, List.getElem?_cons_succ]

theorem load_reset_ok {r : Resource} {bs : List Byte} (h : imageBytes r = .ok bs) :
    State.reset.load r = State.reset.install bs := by
  simp [State.load, State.reset, h]

theorem load_reset_error {r : Resource} {c : LoadCause} (h : imageBytes r = .error c) :
    State.reset.load r = State.reset.loadFail c := by
  simp [State.load, State.reset, h]

/-- An image never gives more than 256 bytes (R193). -/
theorem length_le_of_imageBytes {r : Resource} {bs : List Byte} (h : imageBytes r = .ok bs) : bs.length ≤ 256 := by
  cases r with
  | missing => cases h
  | text cs => exact (imageBytes_eq_ok_iff.mp h).1

end Sys2Proof.Machine

namespace Sys2Proof.Claims

open Sys2Proof.Machine

/-- Settles O5: the bytes are placed into the empty memory, and the status is set. -/
theorem loadPlacesImageBytes : Obligations.LoadPlacesImageBytes := by
  intro r bs h
  have hlen := length_le_of_imageBytes h
  rw [load_reset_ok h]
  refine ⟨rfl, hlen, fun a ha => ?_, fun _ => rfl, ⟨rfl, rfl⟩, rfl, rfl, rfl⟩
  have hcell : (placeBytes [] 0 bs).peek a = bs.getD a 0 := by
    rw [peek_placeBytes bs a rfl (by omega), if_pos (Nat.zero_le a), List.getD_eq_getElem?_getD]
    rfl
  rw [← hcell]
  exact memRead_of_lt (Nat.lt_succ_of_le ha)

/-- Settles O6: the event and the status are all that `loadFail` writes, and no step is taken outside Running. -/
theorem failedLoadLeavesResetState : Obligations.FailedLoadLeavesResetState := by
  intro r c h
  rw [load_reset_error h]
  exact ⟨rfl, rfl, rfl, fun _ => rfl, fun _ => rfl, ⟨rfl, rfl⟩, rfl, rfl, rfl⟩

end Sys2Proof.Claims
end
